-- ==== Sys2Proof/Word.lean ====
section
/-! DEFINITION. The data of the AES-128 core: bytes, key-schedule words, blocks, the state matrix, the
sequencer's phases (00_scope.md R4, R5; 10_state.md R20 to R26; 20_memory.md R52). -/

namespace Sys2Proof

/-- A byte: 8 bits, unsigned, bit 7 the high bit (00_scope.md R5). -/
abbrev Byte := BitVec 8

/-- A key-schedule word: an ordered list of 4 bytes, byte 0 first; never a 32-bit number (20_memory.md R52). -/
abbrev Word := Vector Byte 4

/-- 16 bytes in index order: a key, a block, `IBUF`, `DOUT` (00_scope.md R4). -/
abbrev Block := Vector Byte 16

/-- The 4×4 matrix of bytes, first index the row, second the column (10_state.md R21). -/
abbrev StateMatrix := Vector (Vector Byte 4) 4

/-- What the sequencer does (10_state.md R26); its binary coding is on no port and is not specified (D11). -/
inductive Phase where
  | idle    -- IDLE: no command in progress
  | keyexp  -- KEYEXP: a LOADKEY is in progress
  | cipher  -- CIPHER: an ENCRYPT is in progress
  | fault   -- FAULT: a fault was taken; only reset leaves it
  deriving DecidableEq, Repr

end Sys2Proof
end

