-- ==== Sys2Proof/Config.lean ====
section
/-! DEFINITION. What the spec leaves open for good: the one free value of the model.
Every other parameter of 00_scope.md R4 is fixed and stands where it is used. -/

namespace Sys2Proof

/-- FREE VALUE (DESIGN CHOICE, log 5; safe). What the port `dout` carries while `dout_valid = 0`: "any value"
(10_state.md R33, 92_eei_decisions.md D29). The outputs are functions of the state before the step
(45_host_commands.md R190), so it may depend on the other elements, but not on `S`, `EK` or `IBUF`: no key
(10_state.md R23) and no intermediate state value (70_reset_and_hazards.md R243) reaches a port. -/
opaque Config.doutWhileInvalid (DOUT : Block) (phase : Phase) (upc : BitVec 6) (keyValid : Bool) (err : BitVec 2) :
    BitVec 128

end Sys2Proof
end

