-- ==== Sys2Proof/Syntax.lean ====
section
/-! DEFINITION. The instructions: one constructor for each row of spec/opcode_table.json
(30_encoding.md R80 to R85: four rows of format CMD, eight of format UOP). -/

namespace Sys2Proof

/-- The instructions of both levels (00_scope.md R7). The operand of a command is exactly 16 bytes
(20_memory.md R56); the immediates `k` and `w` are unsigned indices (30_encoding.md R87), whose ranges
`Instr.wf` checks. -/
inductive Instr where
  /-- `NOP`, opcode 0b00; its data bits are ignored (R82, R192). -/
  | nop
  /-- `LOADKEY K`, opcode 0b01 (R82, R193). -/
  | loadkey (key : Block)
  /-- `ENCRYPT B`, opcode 0b10 (R82, R194). -/
  | encrypt (block : Block)
  /-- The reserved opcode 0b11, accepted only to raise `IllegalCommand`; its data bits are ignored (R82, R195). -/
  | reserved0b11
  /-- `LDS`, word 0x01 (R85, R143). -/
  | lds
  /-- `SUB`, word 0x02: SubBytes (R85, R150). -/
  | sub
  /-- `SHR`, word 0x03: ShiftRows (R85, R151). -/
  | shr
  /-- `MIX`, word 0x04: MixColumns (R85, R152). -/
  | mix
  /-- `STS`, word 0x05 (R85, R144). -/
  | sts
  /-- `KCOPY`, word 0x06 (R85, R121). -/
  | kcopy
  /-- `ARK k`, words 0x40 to 0x4A: AddRoundKey with round-key block `k`, 0 ≤ k ≤ 10 (R85, R154). -/
  | ark (k : Nat)
  /-- `KWORD w`, words 0x84 to 0xAB: key-schedule word `w`, 4 ≤ w ≤ 43 (R85, R122). -/
  | kword (w : Nat)
  deriving DecidableEq, Repr

/-- The bits of one instruction in its format (30_encoding.md R80): a host command is the 130-bit number
`op ∥ data` (R81), a micro-operation an 8-bit word (R84). -/
inductive Code where
  | cmd (bits : BitVec 130)
  | uop (bits : BitVec 8)
  deriving DecidableEq, Repr

end Sys2Proof
end

