-- ==== Sys2Proof/WellFormed.lean ====
section
/-! DEFINITION. Which terms of `Instr` are instructions of the hardware: the operand ranges of 30_encoding.md R85, R89. -/

namespace Sys2Proof

/-- `ARK k` exists for k = 0..10 and `KWORD w` for w = 4..43 only; every other instruction has no
restriction (30_encoding.md R85, R88: all keys and all blocks are legal). -/
def Instr.wf : Instr → Bool
  | .nop => true
  | .loadkey _ => true
  | .encrypt _ => true
  | .reserved0b11 => true
  | .lds => true
  | .sub => true
  | .shr => true
  | .mix => true
  | .sts => true
  | .kcopy => true
  | .ark k => decide (k ≤ 10)
  | .kword w => decide (4 ≤ w ∧ w ≤ 43)

/-- The instructions a host can issue (format CMD); the others are micro-operations (30_encoding.md R80). -/
def Instr.isCommand : Instr → Bool
  | .nop => true
  | .loadkey _ => true
  | .encrypt _ => true
  | .reserved0b11 => true
  | .lds => false
  | .sub => false
  | .shr => false
  | .mix => false
  | .sts => false
  | .kcopy => false
  | .ark _ => false
  | .kword _ => false

end Sys2Proof
end

