-- ==== Sys2Proof/Decode.lean ====
section
/-! DEFINITION. Decoding and encoding of both formats (30_encoding.md R80 to R89), and the packing of 16 bytes
on the 128-bit buses (R83). -/

namespace Sys2Proof

/-- The 16 bytes of a 128-bit bus value, byte `i` on bits [127-8i : 120-8i] (30_encoding.md R83, 20_memory.md R53). -/
def unpackBlock (data : BitVec 128) : Block :=
  Vector.ofFn fun i : Fin 16 => data.extractLsb' (120 - 8 * i.val) 8

/-- The 128-bit bus value of 16 bytes, byte `i` on bits [127-8i : 120-8i], so byte 0 is the most significant (30_encoding.md R83, 20_memory.md R53). -/
def packBlock (b : Block) : BitVec 128 :=
  (List.finRange 16).foldl (fun (acc : BitVec 128) (i : Fin 16) => acc ||| ((b[i]).setWidth 128 <<< (120 - 8 * i.val))) 0#128

/-- Decoding of a command from its two port fields (30_encoding.md R81, R82); every opcode is decoded, the reserved
one to the row that raises `IllegalCommand` (R88). -/
def decodeCommand (op : BitVec 2) (data : BitVec 128) : Instr :=
  if op = 0b00#2 then .nop
  else if op = 0b01#2 then .loadkey (unpackBlock data)
  else if op = 0b10#2 then .encrypt (unpackBlock data)
  else .reserved0b11

/-- `decode_uop` (30_encoding.md R86), in the rule's own order; `none` is the rule's RESERVED (R89). -/
def decodeUop (u : BitVec 8) : Option Instr :=
  let cls : BitVec 2 := u.extractLsb' 6 2
  let imm : Nat := (u.extractLsb' 0 6).toNat
  if cls = 0b00#2 then
    if imm = 1 then some .lds
    else if imm = 2 then some .sub
    else if imm = 3 then some .shr
    else if imm = 4 then some .mix
    else if imm = 5 then some .sts
    else if imm = 6 then some .kcopy
    else none
  else if cls = 0b01#2 then
    if imm ≤ 10 then some (.ark imm) else none
  else if cls = 0b10#2 then
    if 4 ≤ imm ∧ imm ≤ 43 then some (.kword imm) else none
  else none

/-- The decoder of both formats: total, `none` exactly on the reserved UOP words (R86, R89). -/
def decode : Code → Option Instr
  | .cmd w => some (decodeCommand (w.extractLsb' 128 2) (w.extractLsb' 0 128))
  | .uop u => decodeUop u

/-- The bits of an instruction, from the tables of 30_encoding.md R82 and R85. The data bits of `NOP` and of the
reserved opcode, which are ignored, are written as zeros (log 8). -/
def encode : Instr → Code
  | .nop => .cmd (0b00#2 ++ 0#128)
  | .loadkey key => .cmd (0b01#2 ++ packBlock key)
  | .encrypt block => .cmd (0b10#2 ++ packBlock block)
  | .reserved0b11 => .cmd (0b11#2 ++ 0#128)
  | .lds => .uop 0x01#8
  | .sub => .uop 0x02#8
  | .shr => .uop 0x03#8
  | .mix => .uop 0x04#8
  | .sts => .uop 0x05#8
  | .kcopy => .uop 0x06#8
  | .ark k => .uop (BitVec.ofNat 8 (0x40 + k))
  | .kword w => .uop (BitVec.ofNat 8 (0x80 + w))

/-- The bits `w` of a row of spec/opcode_table.json as a code: the 8-bit rows are format UOP, the 130-bit rows
(17 whole bytes) format CMD, whose bit 129 is the highest. -/
def tableCode (nbits w : Nat) : Option Code :=
  if nbits = 8 then
    if w < 2 ^ 8 then some (.uop (BitVec.ofNat 8 w)) else none
  else
    if w < 2 ^ 130 then some (.cmd (BitVec.ofNat 130 w)) else none

/-- The instruction the decoder reads from a row's bits. -/
def decodeTableWord (nbits w : Nat) : Option Instr :=
  (tableCode nbits w).bind decode

end Sys2Proof
end

