-- ==== Sys2Proof/Machine/State.lean ====
section
/-! DEFINITION. The state of the core: the nine elements of 10_state.md R20, and the host's coming port samples. -/

namespace Sys2Proof.Machine

open Sys2Proof

/-- What the host drives on the input ports in one step (10_state.md R33). `clk` is the step itself. -/
structure PortIn where
  rst      : Bool
  cmdValid : Bool
  cmdOp    : BitVec 2
  cmdData  : BitVec 128
  deriving DecidableEq, Repr

/-- A host that drives nothing: no reset, no command offered (10_state.md R33, 30_encoding.md R90). -/
def PortIn.quiet : PortIn := { rst := false, cmdValid := false, cmdOp := 0#2, cmdData := 0#128 }

/-- The memory `EK`: cells (address, byte) in canonical form, `Memory.wf` (log 3). -/
abbrev Memory := List Host.Cell

/-- The state of the core (10_state.md R20). -/
structure State where
  /-- the state matrix, `S[r][c]` (R21) -/
  S         : StateMatrix
  /-- the expanded key, `EK[0..175]` (R22) -/
  EK        : Memory
  /-- the input buffer (R24) -/
  IBUF      : Block
  /-- the output register (R25) -/
  DOUT      : Block
  /-- what the sequencer does (R26) -/
  phase     : Phase
  /-- index of the next micro-operation (R27) -/
  upc       : BitVec 6
  /-- `EK` holds a complete expanded key (R28) -/
  keyValid  : Bool
  /-- `DOUT` holds a complete ciphertext (R29) -/
  doutValid : Bool
  /-- the fault code (R30) -/
  err       : BitVec 2
  /-- the MODEL's own field (DESIGN CHOICE, log 1): what the host drives in the coming steps, the next one first;
  when the list is empty the host drives nothing -/
  inputs    : List PortIn
  deriving DecidableEq, Repr

/-- The two causes of a fault of the command shell (60_exceptions.md R212). They are taken as next states
(`takeFault`, R215), never as stops of the step. -/
inductive FaultCause where
  | noKey           -- `ENCRYPT` accepted with `key_valid = 0` (R213)
  | illegalCommand  -- the reserved opcode accepted (R214)
  deriving DecidableEq, Repr

/-- What stops the machine. No run from reset meets it: the spec's own faults are next states (log 4). -/
inductive Fault where
  /-- Raised by the sequencer's fetch when `upc` lies outside the ROM of its phase, an address the spec says does not
  exist (10_state.md R27, 20_memory.md R50); no run reaches such a `upc`. Safe (log 6). -/
  | romAddress
  deriving DecidableEq, Repr

/-- What has no meaning. -/
inductive Refusal where
  /-- An instruction without a meaning yet, by its mnemonic; raised by no arm of `exec`. Safe. -/
  | notModelled (mnemonic : String)
  /-- Raised by the sequencer when a fetched word is reserved (30_encoding.md R89: the step function refuses such a
  word); no ROM holds one. Safe. -/
  | reservedWord (word : BitVec 8)
  /-- Raised by `ARK k` for k > 10, which does not exist (43_state_transform.md R154, 30_encoding.md R89). Safe. -/
  | arkIndex (k : Nat)
  /-- Raised by `KWORD w` for w < 4 or w > 43, which does not exist (30_encoding.md R89). Safe. -/
  | kwordIndex (w : Nat)
  deriving DecidableEq, Repr

/-- What every step and every meaning answers. -/
abbrev Result := Host.Outcome State Fault Refusal

/-- The state right after reset (70_reset_and_hazards.md R241). `S`, `EK`, `IBUF` and `DOUT` are unspecified there:
the zeros are the model's (DESIGN CHOICE, logs 2 and 3, unsafe), and no statement rests on them. The host offers
nothing (log 1). -/
def State.reset : State where
  S         := Vector.replicate 4 (Vector.replicate 4 0#8)
  EK        := []
  IBUF      := Vector.replicate 16 0#8
  DOUT      := Vector.replicate 16 0#8
  phase     := .idle
  upc       := 0#6
  keyValid  := false
  doutValid := false
  err       := 0b00#2
  inputs    := []

end Sys2Proof.Machine
end

