-- ==== Sys2Proof/Machine/Ops.lean ====
section
/-! DEFINITION. The named operations: the memory `EK`, one update for each element of State, taking a fault and the
return from one (reset), the acceptance of an operand. -/

namespace Sys2Proof.Machine

open Sys2Proof

/-! ### The memory EK (20_memory.md R50, R51, R58; log 3) -/

/-- What a byte of `EK` that nothing has written reads as (DESIGN CHOICE, log 3, unsafe: the spec gives `EK` no value
after reset, 70_reset_and_hazards.md R241). -/
def Memory.unlisted : Byte := 0#8

/-- Byte `a` of `EK`. -/
def Memory.read : Memory → Nat → Byte
  | [], _ => Memory.unlisted
  | (x, v) :: m, a => if x = a then v else Memory.read m a

/-- `m` with address `a` unlisted. -/
def Memory.drop : Memory → Nat → Memory
  | [], _ => []
  | (x, v) :: m, a => if x = a then Memory.drop m a else (x, v) :: Memory.drop m a

/-- `m` with the cell `(a, b)` listed at its place, before the first higher address. -/
def Memory.place (a : Nat) (b : Byte) : Memory → Memory
  | [] => [(a, b)]
  | (x, v) :: m => if x < a then (x, v) :: Memory.place a b m else (a, b) :: (x, v) :: m

/-- Writes byte `b` at address `a`, keeping the canonical form. -/
def Memory.write (m : Memory) (a : Nat) (b : Byte) : Memory :=
  if b = Memory.unlisted then Memory.drop m a else Memory.place a b (Memory.drop m a)

/-- Writes the bytes of a list from address `a` on, the first to the lowest address (`MemWrite`, 00_scope.md R6). -/
def Memory.writeBytes (m : Memory) (a : Nat) : List Byte → Memory
  | [] => m
  | b :: bs => Memory.writeBytes (Memory.write m a b) (a + 1) bs

/-- The canonical form: addresses strictly rising, inside 0..175 (20_memory.md R51: nothing above byte 175), no
entry equal to what an unlisted address reads as. -/
abbrev Memory.wf (m : Memory) : Prop :=
  m.Pairwise (fun c d => c.1 < d.1) ∧ ∀ c ∈ m, c.1 < 176 ∧ c.2 ≠ Memory.unlisted

/-! ### One update for each element of State -/

def State.withS (s : State) (x : StateMatrix) : State := { s with S := x }
def State.withEK (s : State) (x : Memory) : State := { s with EK := x }
def State.withIBUF (s : State) (x : Block) : State := { s with IBUF := x }
def State.withDOUT (s : State) (x : Block) : State := { s with DOUT := x }
/-- `phase <- p; upc <- n`: the pair is the program counter (10_state.md R26). -/
def State.withPc (s : State) (p : Phase) (n : BitVec 6) : State := { s with phase := p, upc := n }
def State.withKeyValid (s : State) (x : Bool) : State := { s with keyValid := x }
def State.withDoutValid (s : State) (x : Bool) : State := { s with doutValid := x }
def State.withErr (s : State) (x : BitVec 2) : State := { s with err := x }
def State.withInputs (s : State) (x : List PortIn) : State := { s with inputs := x }

/-! ### Faults and reset (60_exceptions.md R212 to R217, 70_reset_and_hazards.md R241) -/

/-- The code `err` takes for a cause (60_exceptions.md R212). -/
def FaultCause.code : FaultCause → BitVec 2
  | .noKey => 0b01#2
  | .illegalCommand => 0b10#2

/-- Fault entry `raise F` (60_exceptions.md R215): `err` holds the code, the sequencer is in `FAULT` with `upc = 0`,
and nothing else changes; nothing is saved. -/
def takeFault (cause : FaultCause) (s : State) : State :=
  (s.withErr cause.code).withPc .fault 0#6

/-- Reset (70_reset_and_hazards.md R241), which is also the only return from a fault (60_exceptions.md R217).
`IBUF`, `S`, `EK` and `DOUT` are not written. -/
def resetCore (s : State) : State :=
  (((s.withPc .idle 0#6).withKeyValid false).withDoutValid false).withErr 0b00#2

/-! ### The host's port samples (log 1) -/

/-- What the host drives in the coming step. -/
def samplePort (s : State) : PortIn := s.inputs.headD PortIn.quiet

/-- The state with the coming step's port sample taken off the list. -/
def consumePort (s : State) : State := s.withInputs s.inputs.tail

end Sys2Proof.Machine
end

