-- ==== Sys2Proof/Machine/BlockAdapter.lean ====
section
/-! DEFINITION. The Block Adapter: `to_state`, `from_state`, `LDS`, `STS` (42_block_adapter.md R140 to R144). -/

namespace Sys2Proof.Machine

open Sys2Proof

/-- `to_state`: `T[r][c] = b[r + 4c]` (42_block_adapter.md R140). -/
def toState (b : Block) : StateMatrix :=
  Vector.ofFn fun r : Fin 4 => Vector.ofFn fun c : Fin 4 => b[r.val + 4 * c.val]

/-- `from_state`: `b[i] = T[i mod 4][i div 4]` (42_block_adapter.md R141). -/
def fromState (T : StateMatrix) : Block :=
  Vector.ofFn fun i : Fin 16 => T[i.val % 4][i.val / 4]

/-- `LDS` (42_block_adapter.md R143). -/
def execLds (s : State) : Result := .next (s.withS (toState s.IBUF))

/-- `STS` (42_block_adapter.md R144); `dout_valid` is set by the sequencer in the same step (44_round_driver.md R173). -/
def execSts (s : State) : Result := .next (s.withDOUT (fromState s.S))

end Sys2Proof.Machine
end

