-- ==== Sys2Proof/Machine/Flags.lean ====
section
/-! DEFINITION. The flags and the output ports: `ready`, the status vector, `dout`, and the two flag updates a command's
start and end make (10_state.md R28 to R33). The transforms have no flags of their own (R30). -/

namespace Sys2Proof.Machine

open Sys2Proof

/-- `ready` is 1 exactly in phase `IDLE` (10_state.md R31). -/
def ready (s : State) : Bool := decide (s.phase = .idle)

/-- The phases in which a micro-operation is executed each step (10_state.md R26). -/
def busy (s : State) : Bool := decide (s.phase = .keyexp ∨ s.phase = .cipher)

/-- `LOADKEY` accepted: no key until the expansion is complete (10_state.md R28). -/
def startKey (s : State) : State := s.withKeyValid false

/-- The expansion's last step (10_state.md R28, 41_key_scheduler.md R127). -/
def finishKey (s : State) : State := s.withKeyValid true

/-- `ENCRYPT` accepted: `DOUT` is stale until `STS` (10_state.md R29). -/
def startDout (s : State) : State := s.withDoutValid false

/-- The encryption's last step (10_state.md R29, 44_round_driver.md R173). -/
def finishDout (s : State) : State := s.withDoutValid true

/-- The port `dout`: `DOUT` packed while `dout_valid = 1`, any value (a free value, log 5) while `dout_valid = 0`
(10_state.md R25, R33; 30_encoding.md R83). -/
def doutPort (s : State) : BitVec 128 :=
  if s.doutValid then packBlock s.DOUT
  else Config.doutWhileInvalid s.DOUT s.phase s.upc s.keyValid s.err

/-- The output ports (10_state.md R33). -/
structure PortOut where
  ready     : Bool
  keyValid  : Bool
  doutValid : Bool
  dout      : BitVec 128
  err       : BitVec 2
  deriving DecidableEq, Repr

/-- What the ports show during a step: functions of the state before it (45_host_commands.md R190). -/
def outputs (s : State) : PortOut :=
  { ready := ready s, keyValid := s.keyValid, doutValid := s.doutValid, dout := doutPort s, err := s.err }

/-- The read-only vector `status[4:0]`: `err`, `dout_valid`, `key_valid`, `ready` from the high end (10_state.md R32). -/
def status (s : State) : BitVec 5 :=
  s.err ++ BitVec.ofBool s.doutValid ++ BitVec.ofBool s.keyValid ++ BitVec.ofBool (ready s)

end Sys2Proof.Machine
end

