-- ==== Sys2Proof/Machine/Operands.lean ====
section
/-! DEFINITION. The operand forms: the input buffer as the place of a command's 16 bytes, and the two views of `EK`,
the word view and the round-key view (10_state.md R22; 20_memory.md R51, R57; 43_state_transform.md R155). -/

namespace Sys2Proof.Machine

open Sys2Proof

/-- The word view `W[w]`: bytes 4w .. 4w+3 of `EK`, byte 0 at the lowest address (10_state.md R22, 20_memory.md R51, R52). -/
def readWord (E : Memory) (w : Fin 44) : Word :=
  Vector.ofFn fun j : Fin 4 => Memory.read E (4 * w.val + j.val)

/-- Writes word `w` of `EK`. -/
def writeWord (E : Memory) (w : Fin 44) (x : Word) : Memory :=
  Memory.writeBytes E (4 * w.val) x.toList

/-- The round-key view `RK(k)`, column-major (43_state_transform.md R155). -/
def roundKey (E : Memory) (k : Fin 11) : StateMatrix :=
  Vector.ofFn fun r : Fin 4 => Vector.ofFn fun c : Fin 4 => Memory.read E (16 * k.val + r.val + 4 * c.val)

/-- Byte-wise XOR of two words (20_memory.md R52, 40_tables_and_gf.md R100). -/
def xorWord (x y : Word) : Word := Vector.ofFn fun j : Fin 4 => x[j] ^^^ y[j]

/-- A command's operand goes to `IBUF`, all 16 bytes at once (10_state.md R24, 30_encoding.md R83). -/
def loadOperand (b : Block) (s : State) : State := s.withIBUF b

end Sys2Proof.Machine
end

