-- ==== Sys2Proof/Machine/Commands.lean ====
section
/-! DEFINITION. The host commands: what the acceptance step of each does (45_host_commands.md R192 to R195).
Whether a command is accepted at all is the step's question (R190, R191; Machine/Sequencer.lean, log 9). -/

namespace Sys2Proof.Machine

open Sys2Proof

/-- `NOP` (45_host_commands.md R192). -/
def execNop (s : State) : Result := .next s

/-- Acceptance of `LOADKEY` (45_host_commands.md R193). -/
def execLoadkey (key : Block) (s : State) : Result :=
  .next ((startKey (loadOperand key s)).withPc .keyexp 0#6)

/-- Acceptance of `ENCRYPT`, or the `NoKey` fault (45_host_commands.md R194, 60_exceptions.md R213). -/
def execEncrypt (block : Block) (s : State) : Result :=
  if s.keyValid = false then .next (takeFault .noKey s)
  else .next ((startDout (loadOperand block s)).withPc .cipher 0#6)

/-- The reserved opcode: the `IllegalCommand` fault (45_host_commands.md R195, 60_exceptions.md R214). -/
def execReserved0b11 (s : State) : Result := .next (takeFault .illegalCommand s)

end Sys2Proof.Machine
end

