-- ==== Sys2Proof/Machine/KeyScheduler.lean ====
section
/-! DEFINITION. The Key Scheduler: the core transform, the word step, `KCOPY` and `KWORD w` (41_key_scheduler.md R121 to R124). -/

namespace Sys2Proof.Machine

open Sys2Proof

/-- The core transform: rotate left by one byte, substitute, XOR the round constant `RCON[w div 4]` into byte 0
(41_key_scheduler.md R123, R124). -/
def coreTransform (t : Word) (w : Nat) (h : 4 ≤ w ∧ w ≤ 43) : Word :=
  let r : Word := #v[t[1], t[2], t[3], t[0]]
  let u : Word := #v[sbox r[0], sbox r[1], sbox r[2], sbox r[3]]
  #v[u[0] ^^^ rcon (w / 4) ⟨by omega, by omega⟩, u[1], u[2], u[3]]

/-- The value of the new word `w` (41_key_scheduler.md R122): word `w-4` XOR the word before, the latter through the core
transform when `w mod 4 = 0`. -/
def nextWord (E : Memory) (w : Nat) (h : 4 ≤ w ∧ w ≤ 43) : Word :=
  let temp : Word := readWord E ⟨w - 1, by omega⟩
  let temp' : Word := if w % 4 = 0 then coreTransform temp w h else temp
  xorWord (readWord E ⟨w - 4, by omega⟩) temp'

/-- The first four words: the 16 key bytes verbatim (41_key_scheduler.md R121). -/
def copyKey (E : Memory) (key : Block) : Memory := Memory.writeBytes E 0 key.toList

/-- The word step of the expansion (41_key_scheduler.md R122). -/
def expandWord (E : Memory) (w : Nat) (h : 4 ≤ w ∧ w ≤ 43) : Memory :=
  writeWord E ⟨w, by omega⟩ (nextWord E w h)

/-- `KCOPY` (41_key_scheduler.md R121). -/
def execKcopy (s : State) : Result := .next (s.withEK (copyKey s.EK s.IBUF))

/-- `KWORD w` (41_key_scheduler.md R122); w < 4 and w > 43 do not exist (30_encoding.md R89). `key_valid` is set by the
sequencer (41_key_scheduler.md R127). -/
def execKword (w : Nat) (s : State) : Result :=
  if h : 4 ≤ w ∧ w ≤ 43 then .next (s.withEK (expandWord s.EK w h))
  else .refused (.kwordIndex w)

end Sys2Proof.Machine
end

