-- ==== Sys2Proof/Machine/StateTransform.lean ====
section
/-! DEFINITION. The State Transform: SubBytes, ShiftRows, MixColumns, AddRoundKey as functions of the state matrix, and
the micro-operations `SUB`, `SHR`, `MIX`, `ARK k` (43_state_transform.md R150 to R155). -/

namespace Sys2Proof.Machine

open Sys2Proof

/-- SubBytes (43_state_transform.md R150). -/
def subBytes (X : StateMatrix) : StateMatrix :=
  Vector.ofFn fun r : Fin 4 => Vector.ofFn fun c : Fin 4 => sbox X[r][c]

/-- ShiftRows: row `r` rotated left by `r` (43_state_transform.md R151). -/
def shiftRows (X : StateMatrix) : StateMatrix :=
  Vector.ofFn fun r : Fin 4 => Vector.ofFn fun c : Fin 4 => X[r][(c.val + r.val) % 4]

/-- The transform of one column, top to bottom (43_state_transform.md R153). -/
def mixcol (a : Word) : Word := #v[
  xtime a[0] ^^^ mul3 a[1] ^^^ a[2] ^^^ a[3],
  a[0] ^^^ xtime a[1] ^^^ mul3 a[2] ^^^ a[3],
  a[0] ^^^ a[1] ^^^ xtime a[2] ^^^ mul3 a[3],
  mul3 a[0] ^^^ a[1] ^^^ a[2] ^^^ xtime a[3]]

/-- Column `c` of a matrix, top to bottom (43_state_transform.md R152). -/
def column (X : StateMatrix) (c : Fin 4) : Word := Vector.ofFn fun r : Fin 4 => X[r][c]

/-- MixColumns (43_state_transform.md R152). -/
def mixColumns (X : StateMatrix) : StateMatrix :=
  Vector.ofFn fun r : Fin 4 => Vector.ofFn fun c : Fin 4 => (mixcol (column X c))[r]

/-- AddRoundKey with round-key block `k` of `E` (43_state_transform.md R154). -/
def addRoundKey (E : Memory) (X : StateMatrix) (k : Fin 11) : StateMatrix :=
  Vector.ofFn fun r : Fin 4 => Vector.ofFn fun c : Fin 4 => X[r][c] ^^^ (roundKey E k)[r][c]

/-- `SUB` (43_state_transform.md R150). -/
def execSub (s : State) : Result := .next (s.withS (subBytes s.S))

/-- `SHR` (43_state_transform.md R151). -/
def execShr (s : State) : Result := .next (s.withS (shiftRows s.S))

/-- `MIX` (43_state_transform.md R152). -/
def execMix (s : State) : Result := .next (s.withS (mixColumns s.S))

/-- `ARK k` (43_state_transform.md R154); k > 10 does not exist (30_encoding.md R89). -/
def execArk (k : Nat) (s : State) : Result :=
  if h : k < 11 then .next (s.withS (addRoundKey s.EK s.S ⟨k, h⟩))
  else .refused (.arkIndex k)

end Sys2Proof.Machine
end

