-- ==== Sys2Proof/Machine/Dispatch.lean ====
section
/-! DEFINITION. One arm for each instruction. -/

namespace Sys2Proof.Machine

open Sys2Proof

def exec (i : Instr) (s : State) : Host.Outcome State Fault Refusal :=
  match i with
  -- format CMD (45_host_commands.md)
  | .nop => Sys2Proof.Machine.execNop s
  | .loadkey key => Sys2Proof.Machine.execLoadkey key s
  | .encrypt block => Sys2Proof.Machine.execEncrypt block s
  | .reserved0b11 => Sys2Proof.Machine.execReserved0b11 s
  -- format UOP (42_block_adapter.md, 43_state_transform.md, 41_key_scheduler.md)
  | .lds => Sys2Proof.Machine.execLds s
  | .sub => Sys2Proof.Machine.execSub s
  | .shr => Sys2Proof.Machine.execShr s
  | .mix => Sys2Proof.Machine.execMix s
  | .sts => Sys2Proof.Machine.execSts s
  | .kcopy => Sys2Proof.Machine.execKcopy s
  | .ark k => Sys2Proof.Machine.execArk k s
  | .kword w => Sys2Proof.Machine.execKword w s

end Sys2Proof.Machine
end

