-- ==== Sys2Proof/Machine/Sequencer.lean ====
section
/-! DEFINITION. The sequencer: fetch from the ROM of the phase, execution of one micro-operation and the move of `upc`
(41_key_scheduler.md R127, 44_round_driver.md R173), and the step as a function of the four inputs (45_host_commands.md R190). -/

namespace Sys2Proof.Machine

open Sys2Proof

/-- What follows an instruction in the same step: nothing follows a fault or a refusal. -/
def andThen (r : Result) (f : State → State) : Result :=
  match r with
  | .next s => .next (f s)
  | .fault e => .fault e
  | .refused e => .refused e

/-- Fetch at `upc`, decode, execute, then `after`. A `upc` outside the ROM is the fault `romAddress` (log 6); a reserved
word has no meaning (30_encoding.md R89). -/
def runMicro (rom : List (BitVec 8)) (after : State → State) (s : State) : Result :=
  match rom[s.upc.toNat]? with
  | none => .fault .romAddress
  | some u =>
    match decodeUop u with
    | none => .refused (.reservedWord u)
    | some i => andThen (exec i s) after

/-- The move of the program counter in phase `KEYEXP` (41_key_scheduler.md R127). -/
def advanceKeyexp (s : State) : State :=
  if s.upc = 40#6 then (finishKey s).withPc .idle 0#6 else s.withPc s.phase (s.upc + 1#6)

/-- The move of the program counter in phase `CIPHER` (44_round_driver.md R173). -/
def advanceCipher (s : State) : State :=
  if s.upc = 41#6 then (finishDout s).withPc .idle 0#6 else s.withPc s.phase (s.upc + 1#6)

/-- `step_keyexp` (41_key_scheduler.md R127). -/
def stepKeyexp (s : State) : Result := runMicro krom advanceKeyexp s

/-- `step_cipher` (44_round_driver.md R173). -/
def stepCipher (s : State) : Result := runMicro crom advanceCipher s

/-- The step in phase `IDLE` with `rst = 0`: the offered command, if any, is accepted and executed (45_host_commands.md
R190, R191). -/
def stepIdle (p : PortIn) (s : State) : Result :=
  if p.cmdValid = false then .next s else exec (decodeCommand p.cmdOp p.cmdData) s

/-- The step function of the core, its cases in the rule's order (45_host_commands.md R190, 60_exceptions.md R219). -/
def stepOn (p : PortIn) (s : State) : Result :=
  if p.rst = true then .next (resetCore s)
  else
    match s.phase with
    | .fault => .next s
    | .keyexp => stepKeyexp s
    | .cipher => stepCipher s
    | .idle => stepIdle p s

/-- A host that offers a command by its 130 bits (30_encoding.md R81). -/
def offerCode (w : BitVec 130) : PortIn :=
  { rst := false, cmdValid := true, cmdOp := w.extractLsb' 128 2, cmdData := w.extractLsb' 0 128 }

/-- Where a micro-operation word stands in a ROM: its first index, from `n` on. -/
def romIndex (u : BitVec 8) : List (BitVec 8) → Nat → Option Nat
  | [], _ => none
  | x :: rom, n => if x = u then some n else romIndex u rom (n + 1)

/-- The state whose next step fetches the micro-operation word `u`: the ROMs are constants (20_memory.md R62), so the
program counter is put on the word's place in its ROM (log 10). A word in neither ROM can never be fetched: `upc` is
then put outside, where the step stops. -/
def selectMicro (u : BitVec 8) (s : State) : State :=
  match romIndex u crom 0 with
  | some n => s.withPc .cipher (BitVec.ofNat 6 n)
  | none =>
    match romIndex u krom 0 with
    | some n => s.withPc .keyexp (BitVec.ofNat 6 n)
    | none => s.withPc .cipher 63#6

/-- The state whose next step runs the instruction with these bits: a command is put on the port with the core idle, a
micro-operation is selected with reset held low (log 10). -/
def presentCode (c : Code) (s : State) : State :=
  match c with
  | .cmd w => (s.withPc .idle 0#6).withInputs (offerCode w :: s.inputs.tail)
  | .uop u => (selectMicro u s).withInputs ({ samplePort s with rst := false } :: s.inputs.tail)

end Sys2Proof.Machine
end

