-- ==== Sys2Proof/Machine/Step.lean ====
section
/-! DEFINITION. One step of the machine: the coming port sample is taken off the host's list (log 1) and the core steps
on it (45_host_commands.md R190). -/

namespace Sys2Proof.Machine

open Sys2Proof

def step (s : State) : Host.Outcome State Fault Refusal := stepOn (samplePort s) (consumePort s)

/-- `s` with the instruction of these bits (numbered as spec/opcode_table.json numbers them) where the next step finds it
(log 10). Bits that are no row's leave `s` as it is. -/
def State.withFetchWord (s : State) (nbits w : Nat) : State :=
  match tableCode nbits w with
  | some c => presentCode c s
  | none => s

end Sys2Proof.Machine
end

