-- ==== Sys2Proof/Machine/Script.lean ====
section
/-! DEFINITION. Runs of many steps, and the host that runs a script: statements, what the host drives, when it reads `dout`, when a run ends
(30_encoding.md R90, R92; 45_host_commands.md R199 to R201; log 11). -/

namespace Sys2Proof.Machine

open Sys2Proof

/-- `n` steps of the core (45_host_commands.md R190), stopping at the first stop. -/
def runSteps : Nat → State → Result
  | 0, s => .next s
  | n + 1, s =>
    match step s with
    | .next t => runSteps n t
    | .fault e => .fault e
    | .refused e => .refused e

/-- The statements of a host script (30_encoding.md R90). -/
inductive Stmt where
  | reset
  | nop
  | loadkey (key : Block)
  | encrypt (block : Block)
  | cmd3
  deriving DecidableEq, Repr

/-- `ECB K, B1, ..., Bn` (30_encoding.md R92, 45_host_commands.md R199). -/
def ecb (key : Block) (blocks : List Block) : List Stmt := .loadkey key :: blocks.map .encrypt

/-- What the host drives while a statement is the next one (30_encoding.md R90). -/
def Stmt.offer : Stmt → PortIn
  | .reset => { PortIn.quiet with rst := true }
  | .nop => { rst := false, cmdValid := true, cmdOp := 0b00#2, cmdData := 0#128 }
  | .loadkey key => { rst := false, cmdValid := true, cmdOp := 0b01#2, cmdData := packBlock key }
  | .encrypt block => { rst := false, cmdValid := true, cmdOp := 0b10#2, cmdData := packBlock block }
  | .cmd3 => { rst := false, cmdValid := true, cmdOp := 0b11#2, cmdData := 0#128 }

/-- Whether a step takes the offered statement: `RESET` is performed in any step, a command is accepted in a step with
`ready = 1` (45_host_commands.md R191). -/
def Stmt.taken (s : State) : Stmt → Bool
  | .reset => true
  | .nop => ready s
  | .loadkey _ => ready s
  | .encrypt _ => ready s
  | .cmd3 => ready s

/-- A host and its core: the statements still to be taken, the ciphertexts read, and whether an encryption that was
accepted has not been read yet. -/
structure Session where
  core     : State
  pending  : List Stmt
  awaiting : Bool
  results  : List (BitVec 128)
  deriving DecidableEq, Repr

/-- The session that starts a script on a core as it is. A whole run resets the core first: `runScript`. -/
def Session.start (core : State) (script : List Stmt) : Session :=
  { core := core, pending := script, awaiting := false, results := [] }

/-- The host reads `dout` in the first step with `dout_valid = 1` after an `ENCRYPT` was accepted (45_host_commands.md
R200; DESIGN CHOICE, log 11: any step before the next `ENCRYPT` is accepted would do). -/
def collect (x : Session) : Session :=
  if x.awaiting = true ∧ x.core.doutValid = true then
    { x with awaiting := false, results := x.results ++ [doutPort x.core] }
  else x

/-- Whether the host has a ciphertext to wait for after its statement was taken: an accepted `ENCRYPT` that started the
cipher, until it is read; a reset aborts it. -/
def awaits (st : Stmt) (before : Bool) (after : State) : Bool :=
  match st with
  | .reset => false
  | .nop => before
  | .loadkey _ => before
  | .encrypt _ => decide (after.phase = .cipher)
  | .cmd3 => before

/-- One step of host and core: the host reads, drives its next statement, and drops it when it is taken (30_encoding.md R90). -/
def sessionStep (y : Session) : Host.Outcome Session Fault Refusal :=
  let x := collect y
  match x.pending with
  | [] =>
    match stepOn PortIn.quiet x.core with
    | .next t => .next { x with core := t }
    | .fault e => .fault e
    | .refused e => .refused e
  | st :: rest =>
    match stepOn st.offer x.core with
    | .next t =>
      if st.taken x.core = true then .next { x with core := t, pending := rest, awaiting := awaits st x.awaiting t }
      else .next { x with core := t }
    | .fault e => .fault e
    | .refused e => .refused e

/-- How a run stands (45_host_commands.md R201). -/
inductive RunStatus where
  | running
  | completed
  | faulted
  deriving DecidableEq, Repr

/-- A run ends faulted when `phase = FAULT`, completed when every statement has been taken and `phase = IDLE`
(45_host_commands.md R201). -/
def runStatus (x : Session) : RunStatus :=
  if x.core.phase = .fault then .faulted
  else if x.pending = [] ∧ x.core.phase = .idle then .completed
  else .running

/-- At most `n` steps of a session: it stops where its run ends (45_host_commands.md R201), and the host reads a ciphertext
that is still to be read. The end of the run is tested before each step, the first one too, so a session put on a core
already in `FAULT` is over before its first statement, be it `RESET` (DESIGN CHOICE, log 11: 30_encoding.md R90 and R201 say
nothing of a script on a core that no reset precedes). No whole run is such a session: see `runScript`. -/
def runSession : Nat → Session → Host.Outcome Session Fault Refusal
  | 0, x => .next (collect x)
  | n + 1, x =>
    match runStatus x with
    | .completed => .next (collect x)
    | .faulted => .next (collect x)
    | .running =>
      match sessionStep x with
      | .next y => runSession n y
      | .fault e => .fault e
      | .refused e => .refused e

/-- A run: a reset followed by a host script (45_host_commands.md R201, 70_reset_and_hazards.md R244 (1)). The opening reset is
one step with `rst = 1`, on a core in any state, `FAULT` among them; the end of the run is tested from the step after it
on, and `n` bounds the steps after it. The script may begin with a `RESET` of its own, which then holds the reset for a
second step (R242; log 11). -/
def runScript (n : Nat) (core : State) (script : List Stmt) : Host.Outcome Session Fault Refusal :=
  match stepOn Stmt.reset.offer core with
  | .next t => runSession n (Session.start t script)
  | .fault e => .fault e
  | .refused e => .refused e

end Sys2Proof.Machine
end

