-- ==== Sys2Proof/Machine/Asm.lean ====
section
/-! DEFINITION. The assembler syntax as text: host scripts (30_encoding.md R90) and micro-operation listings (R91).
The conventions the rules leave open (white space, the case of hexadecimal digits) are log 12. -/

namespace Sys2Proof.Machine

open Sys2Proof

def kwReset : List Char := ['R', 'E', 'S', 'E', 'T']
def kwNop : List Char := ['N', 'O', 'P']
def kwLoadkey : List Char := ['L', 'O', 'A', 'D', 'K', 'E', 'Y']
def kwEncrypt : List Char := ['E', 'N', 'C', 'R', 'Y', 'P', 'T']
def kwCmd : List Char := ['.', 'c', 'm', 'd']
def kwLds : List Char := ['L', 'D', 'S']
def kwSub : List Char := ['S', 'U', 'B']
def kwShr : List Char := ['S', 'H', 'R']
def kwMix : List Char := ['M', 'I', 'X']
def kwSts : List Char := ['S', 'T', 'S']
def kwKcopy : List Char := ['K', 'C', 'O', 'P', 'Y']
def kwArk : List Char := ['A', 'R', 'K']
def kwKword : List Char := ['K', 'W', 'O', 'R', 'D']

/-- The hexadecimal digit of a value below 16. -/
def hexChar (n : Nat) : Char :=
  ['0', '1', '2', '3', '4', '5', '6', '7', '8', '9', 'a', 'b', 'c', 'd', 'e', 'f'].getD n '0'

/-- The value of a hexadecimal digit, in either case. -/
def hexValue (c : Char) : Option Nat :=
  if '0'.toNat ≤ c.toNat ∧ c.toNat ≤ '9'.toNat then some (c.toNat - '0'.toNat)
  else if 'a'.toNat ≤ c.toNat ∧ c.toNat ≤ 'f'.toNat then some (c.toNat - 'a'.toNat + 10)
  else if 'A'.toNat ≤ c.toNat ∧ c.toNat ≤ 'F'.toNat then some (c.toNat - 'A'.toNat + 10)
  else none

/-- Two hexadecimal digits, the high half first (00_scope.md R5). -/
def byteText (b : Byte) : List Char := [hexChar (b.toNat / 16), hexChar (b.toNat % 16)]

/-- A 16-byte operand as 32 hexadecimal digits, byte 0 first (30_encoding.md R90). -/
def blockText (b : Block) : List Char := (b.toList.map byteText).flatten

/-- The bytes of an even number of hexadecimal digits. -/
def parseBytes : List Char → Option (List Byte)
  | [] => some []
  | [_] => none
  | h :: l :: cs =>
    match hexValue h, hexValue l, parseBytes cs with
    | some x, some y, some bs => some (BitVec.ofNat 8 (16 * x + y) :: bs)
    | _, _, _ => none

/-- The bytes of several groups of digits: spaces may stand between bytes, not inside one (30_encoding.md R90). -/
def parseGroups : List (List Char) → Option (List Byte)
  | [] => some []
  | g :: gs =>
    match parseBytes g, parseGroups gs with
    | some bs, some cs => some (bs ++ cs)
    | _, _ => none

/-- A 16-byte operand: exactly 16 bytes (30_encoding.md R90, 20_memory.md R56). -/
def parseBlock (groups : List (List Char)) : Option Block :=
  match parseGroups groups with
  | some bs => if h : bs.length = 16 then some ⟨bs.toArray, by simpa using h⟩ else none
  | none => none

/-- Appends a group that is not empty. -/
def pushGroup (cur : List Char) (gs : List (List Char)) : List (List Char) := if cur = [] then gs else cur :: gs

/-- The groups of characters between blanks. -/
def groupsFrom (cur : List Char) : List Char → List (List Char)
  | [] => pushGroup cur []
  | c :: cs => if c = ' ' ∨ c = '\t' then pushGroup cur (groupsFrom [] cs) else groupsFrom (cur ++ [c]) cs

/-- The groups of a line up to its comment, which `;` starts (30_encoding.md R90). -/
def groupsOfLine (line : List Char) : List (List Char) := groupsFrom [] (line.takeWhile (fun c => decide (c ≠ ';')))

/-- The lines of a text. -/
def linesFrom (cur : List Char) : List Char → List (List Char)
  | [] => [cur]
  | c :: cs => if c = '\n' then cur :: linesFrom [] cs else linesFrom (cur ++ [c]) cs

/-- One statement as text (30_encoding.md R90). -/
def stmtText : Stmt → List Char
  | .reset => kwReset
  | .nop => kwNop
  | .loadkey key => kwLoadkey ++ ' ' :: blockText key
  | .encrypt block => kwEncrypt ++ ' ' :: blockText block
  | .cmd3 => kwCmd ++ [' ', '3']

/-- A line of a script: nothing (an empty line, a comment) or one statement; `none` if it is neither. -/
def parseLine (line : List Char) : Option (List Stmt) :=
  match groupsOfLine line with
  | [] => some []
  | kw :: gs =>
    if kw = kwReset ∧ gs = [] then some [.reset]
    else if kw = kwNop ∧ gs = [] then some [.nop]
    else if kw = kwLoadkey then (parseBlock gs).map fun key => [.loadkey key]
    else if kw = kwEncrypt then (parseBlock gs).map fun block => [.encrypt block]
    else if kw = kwCmd ∧ gs = [['3']] then some [.cmd3]
    else none

/-- The statements of the lines, in order. -/
def parseLines : List (List Char) → Option (List Stmt)
  | [] => some []
  | l :: ls =>
    match parseLine l, parseLines ls with
    | some x, some y => some (x ++ y)
    | _, _ => none

/-- A host script: one statement a line (30_encoding.md R90). -/
def parseScript (text : List Char) : Option (List Stmt) := parseLines (linesFrom [] text)

/-- A script as text, each statement on a line of its own. -/
def scriptText : List Stmt → List Char
  | [] => []
  | st :: rest => stmtText st ++ '\n' :: scriptText rest

/-- The decimal digits of an index. -/
def decimalText (n : Nat) : List Char := Nat.toDigits 10 n

/-- A micro-operation as text: its mnemonic, and for `ARK` and `KWORD` one decimal operand (30_encoding.md R91). A
command is written as its script statement (R90). -/
def instrText : Instr → List Char
  | .nop => stmtText .nop
  | .loadkey key => stmtText (.loadkey key)
  | .encrypt block => stmtText (.encrypt block)
  | .reserved0b11 => stmtText .cmd3
  | .lds => kwLds
  | .sub => kwSub
  | .shr => kwShr
  | .mix => kwMix
  | .sts => kwSts
  | .kcopy => kwKcopy
  | .ark k => kwArk ++ ' ' :: decimalText k
  | .kword w => kwKword ++ ' ' :: decimalText w

/-- The value of decimal digits, the first the highest. -/
def parseDecimal (acc : Nat) : List Char → Option Nat
  | [] => some acc
  | c :: cs => if '0'.toNat ≤ c.toNat ∧ c.toNat ≤ '9'.toNat then parseDecimal (10 * acc + (c.toNat - '0'.toNat)) cs else none

/-- An operand inside its range, `lo` to `hi`. -/
def parseIndex (lo hi : Nat) (cs : List Char) : Option Nat :=
  match cs, parseDecimal 0 cs with
  | [], _ => none
  | _ :: _, some n => if lo ≤ n ∧ n ≤ hi then some n else none
  | _ :: _, none => none

/-- A micro-operation from its text (30_encoding.md R91). -/
def parseMicro (line : List Char) : Option Instr :=
  match groupsOfLine line with
  | [kw] =>
    if kw = kwLds then some .lds
    else if kw = kwSub then some .sub
    else if kw = kwShr then some .shr
    else if kw = kwMix then some .mix
    else if kw = kwSts then some .sts
    else if kw = kwKcopy then some .kcopy
    else none
  | [kw, operand] =>
    if kw = kwArk then (parseIndex 0 10 operand).map .ark
    else if kw = kwKword then (parseIndex 4 43 operand).map .kword
    else none
  | _ => none

end Sys2Proof.Machine
end

