-- ==== Sys2Proof/Machine/Field.lean ====
section
/-! DEFINITION. GF(2^8) as 40_tables_and_gf.md R101 gives it, and the construction of the S-box (R106). The hardware has
neither (R100): they are what the spec says its tables and products mean. -/

namespace Sys2Proof.Machine

open Sys2Proof

/-- The product of two bytes as polynomials over GF(2), before reduction (40_tables_and_gf.md R101). -/
def polyMul (a b : Byte) : BitVec 15 :=
  [0, 1, 2, 3, 4, 5, 6, 7].foldl (fun acc i => if b.getLsbD i then acc ^^^ (a.setWidth 15 <<< i) else acc) 0#15

/-- The remainder modulo x^8+x^4+x^3+x+1, that is 0x11B (40_tables_and_gf.md R101). -/
def polyMod (p : BitVec 15) : Byte :=
  ([14, 13, 12, 11, 10, 9, 8].foldl (fun acc d => if acc.getLsbD d then acc ^^^ (0x11B#15 <<< (d - 8)) else acc) p).setWidth 8

/-- Multiplication in GF(2^8) (40_tables_and_gf.md R101). -/
def gfMul (a b : Byte) : Byte := polyMod (polyMul a b)

/-- The affine map of the S-box's construction (40_tables_and_gf.md R106). -/
def affine (i : Byte) : Byte :=
  i ^^^ i.rotateLeft 1 ^^^ i.rotateLeft 2 ^^^ i.rotateLeft 3 ^^^ i.rotateLeft 4 ^^^ 0x63#8

/-- The matrix of MixColumns, row by row (43_state_transform.md R152). -/
def mixMatrix : Vector (Vector Byte 4) 4 := #v[
  #v[0x02, 0x03, 0x01, 0x01],
  #v[0x01, 0x02, 0x03, 0x01],
  #v[0x01, 0x01, 0x02, 0x03],
  #v[0x03, 0x01, 0x01, 0x02]]

end Sys2Proof.Machine
end

