-- ==== Sys2Proof/Machine/FunctionLevel.lean ====
section
/-! DEFINITION. The function level (00_scope.md R7): `Expand` and `Cipher`, over the same operations the
micro-operations use, and the pseudo-instructions that name parts of the ROMs (30_encoding.md R92). -/

namespace Sys2Proof.Machine

open Sys2Proof

/-- `Expand` after the key copy and the first `n` word steps, from any content `E` of `EK` (41_key_scheduler.md R125). -/
def expandUpTo (E : Memory) (key : Block) : (n : Nat) → n ≤ 40 → Memory
  | 0, _ => copyKey E key
  | n + 1, h => expandWord (expandUpTo E key n (by omega)) (n + 4) ⟨by omega, by omega⟩

/-- `Expand(K)` (41_key_scheduler.md R125). The rule starts from any `EK`; the result depends on `K` only. -/
def expand (key : Block) : Memory := expandUpTo [] key 40 (Nat.le_refl 40)

/-- `Init`: AddRoundKey with round-key block 0 (44_round_driver.md R171). -/
def initRound (E : Memory) (X : StateMatrix) : StateMatrix := addRoundKey E X 0

/-- `Round(r)` (44_round_driver.md R171). -/
def fullRound (E : Memory) (X : StateMatrix) (r : Fin 11) : StateMatrix :=
  addRoundKey E (mixColumns (shiftRows (subBytes X))) r

/-- `FinalRound`: MixColumns left out (44_round_driver.md R171). -/
def finalRound (E : Memory) (X : StateMatrix) : StateMatrix := addRoundKey E (shiftRows (subBytes X)) 10

/-- `Cipher(E, B)` (44_round_driver.md R178). -/
def cipher (E : Memory) (block : Block) : Block :=
  fromState (finalRound E ([1, 2, 3, 4, 5, 6, 7, 8, 9].foldl (fullRound E) (initRound E (toState block))))

/-! ### Pseudo-instructions of the micro level (30_encoding.md R92) -/

/-- `INIT`. -/
def pseudoInit : List Instr := [.ark 0]

/-- `ROUND r`, r = 1..9. -/
def pseudoRound (r : Nat) : List Instr := [.sub, .shr, .mix, .ark r]

/-- `FINAL`. -/
def pseudoFinal : List Instr := [.sub, .shr, .ark 10]

/-- `DONE`. -/
def pseudoDone : List Instr := [.sts]

/-- `CIPHER`: one traversal of the round driver. -/
def pseudoCipher : List Instr :=
  [.lds] ++ pseudoInit ++ ([1, 2, 3, 4, 5, 6, 7, 8, 9].map pseudoRound).flatten ++ pseudoFinal ++ pseudoDone

/-- `EXPAND`: `KCOPY` and `KWORD 4` to `KWORD 43`. -/
def pseudoExpand : List Instr := [.kcopy] ++ (List.range 40).map fun n => .kword (n + 4)

/-! ### The states of the source's round driver (44_round_driver.md R170) -/

/-- The states of the source's state machine, one traversal per block; `adapterIn` is the Block Adapter's step before `Init`. -/
inductive DriverState where
  | adapterIn
  | init
  | round (r : Nat)
  | finalRound
  | done
  deriving DecidableEq, Repr

/-- The state of the source's round driver at `upc` in phase `CIPHER` (44_round_driver.md R170). -/
def driverState (upc : Nat) : Option DriverState :=
  if upc = 0 then some .adapterIn
  else if upc = 1 then some .init
  else if upc ≤ 37 then some (.round ((upc + 2) / 4))
  else if upc ≤ 40 then some .finalRound
  else if upc = 41 then some .done
  else none

end Sys2Proof.Machine
end

