-- ==== Sys2Proof/Safety.lean ====
section
/-! DEFINITION. The invariants of the machine and what counts as a safe run, in the terms the claims use
(10_state.md R36; 45_host_commands.md R201; 60_exceptions.md R216). -/

namespace Sys2Proof.Machine

open Sys2Proof

/-- The control invariant: 10_state.md R36 (c), (d), (e), the ranges of `upc` (R27), the flags of the busy phases
(45_host_commands.md R197, R198), `err = 0b11` never produced (60_exceptions.md R212). -/
structure ControlInv (s : State) : Prop where
  faultIffErr     : s.phase = .fault ↔ s.err ≠ 0b00#2
  errProduced     : s.err ≠ 0b11#2
  idleUpc         : s.phase = .idle → s.upc = 0#6
  faultUpc        : s.phase = .fault → s.upc = 0#6
  keyexpUpc       : s.phase = .keyexp → s.upc.toNat ≤ 40
  cipherUpc       : s.phase = .cipher → s.upc.toNat ≤ 41
  keyexpKeyValid  : s.phase = .keyexp → s.keyValid = false
  cipherKeyValid  : s.phase = .cipher → s.keyValid = true
  cipherDoutValid : s.phase = .cipher → s.doutValid = false

/-- The bytes of the key a schedule was built from: round-key block 0 (10_state.md R23). -/
def schedule0 (E : Memory) : Block := Vector.ofFn fun i : Fin 16 => Memory.read E i.val

/-- Two contents of `EK` agree on the words 0 to n-1. -/
def sameWords (n : Nat) (E F : Memory) : Prop := ∀ a : Nat, a < 4 * n → Memory.read E a = Memory.read F a

/-- The key invariant: with `key_valid = 1`, `EK` is the expansion of its own round-key block 0 (10_state.md R28, R36 (a));
in phase `KEYEXP` with `upc = u ≥ 1` the words 0 to u+2 are those of the expansion of `IBUF` (70_reset_and_hazards.md R243). -/
structure KeyInv (s : State) : Prop where
  complete : s.keyValid = true → sameWords 44 s.EK (expand (schedule0 s.EK))
  partly   : s.phase = .keyexp → 1 ≤ s.upc.toNat → sameWords (s.upc.toNat + 3) s.EK (expand s.IBUF)

/-- No reset is asked for in the coming `n` steps. -/
def noReset (n : Nat) (s : State) : Prop := ∀ p ∈ s.inputs.take n, p.rst = false

/-- A session's run is safe when it has completed (45_host_commands.md R201). -/
def safeRun (x : Session) : Prop := runStatus x = .completed

end Sys2Proof.Machine
end

