-- ==== Sys2Proof/Certificates/Slice0/Obligations.lean ====
section
/-! DEFINITION. The statements for the provers. Each docstring names the rule of spec/ it formalises. -/

open Sys2Proof Sys2Proof.Machine

/-! ### Encoding -/

/-- 30_encoding.md R82, R85, R86: the decoder gives back every well-formed instruction from its encoding, with every key,
every block and every index. -/
def Obligations.DecodeInvertsEncode : Prop :=
  ∀ i : Instr, i.wf = true → decode (encode i) = some i

/-- 30_encoding.md R85, R86: a micro-operation word has one meaning, and the meaning's encoding is the word. -/
def Obligations.EncodeInvertsMicroDecode : Prop :=
  ∀ (u : BitVec 8) (i : Instr), decode (.uop u) = some i → encode i = .uop u ∧ i.wf = true ∧ i.isCommand = false

/-- 30_encoding.md R89: the reserved words are exactly those of the rule's list, the decoder returns RESERVED for them,
neither ROM holds one (the spec's own inference from R126 and R172), and the sequencer refuses one. -/
def Obligations.ReservedWordsRefused : Prop :=
  (∀ u : BitVec 8, decodeUop u = none ↔
    (u.toNat = 0x00 ∨ (0x07 ≤ u.toNat ∧ u.toNat ≤ 0x3F) ∨ (0x4B ≤ u.toNat ∧ u.toNat ≤ 0x7F) ∨
      (0x80 ≤ u.toNat ∧ u.toNat ≤ 0x83) ∨ (0xAC ≤ u.toNat ∧ u.toNat ≤ 0xBF) ∨ (0xC0 ≤ u.toNat ∧ u.toNat ≤ 0xFF))) ∧
  (∀ u : BitVec 8, u ∈ crom ∨ u ∈ krom → decodeUop u ≠ none) ∧
  (∀ (rom : List (BitVec 8)) (after : State → State) (s : State) (u : BitVec 8),
    rom[s.upc.toNat]? = some u → decodeUop u = none → runMicro rom after s = .refused (.reservedWord u))

/-- 30_encoding.md R82, R85: words written out from the tables (a sanity statement). -/
def Obligations.WordsWrittenFromTheTables : Prop :=
  decode (.uop 0b00000001#8) = some .lds ∧ decode (.uop 0b00000010#8) = some .sub ∧
  decode (.uop 0b00000011#8) = some .shr ∧ decode (.uop 0b00000100#8) = some .mix ∧
  decode (.uop 0b00000101#8) = some .sts ∧ decode (.uop 0b00000110#8) = some .kcopy ∧
  decode (.uop 0b01001010#8) = some (.ark 10) ∧ decode (.uop 0b10101011#8) = some (.kword 43) ∧
  decode (.cmd 0x0ffffffffffffffffffffffffffffffff#130) = some .nop ∧
  decode (.cmd 0x1000102030405060708090a0b0c0d0e0f#130) =
    some (.loadkey #v[0, 1, 2, 3, 4, 5, 6, 7, 8, 9, 10, 11, 12, 13, 14, 15]) ∧
  decode (.cmd 0x200112233445566778899aabbccddeeff#130) =
    some (.encrypt #v[0x00, 0x11, 0x22, 0x33, 0x44, 0x55, 0x66, 0x77, 0x88, 0x99, 0xaa, 0xbb, 0xcc, 0xdd, 0xee, 0xff]) ∧
  decode (.cmd 0x300000000000000000000000000000001#130) = some .reserved0b11

/-- 41_key_scheduler.md R126, 44_round_driver.md R172, 30_encoding.md R92: the ROMs hold the pseudo-programs `EXPAND` and
`CIPHER`, 41 and 42 words, each word the encoding of its instruction, with the words of each round at the places the
rules give. -/
def Obligations.RomsHoldThePseudoPrograms : Prop :=
  krom.map decodeUop = pseudoExpand.map some ∧ krom.map Code.uop = pseudoExpand.map encode ∧ krom.length = 41 ∧
  crom.map decodeUop = pseudoCipher.map some ∧ crom.map Code.uop = pseudoCipher.map encode ∧ crom.length = 42 ∧
  (∀ i : Fin 41, 1 ≤ i.val → (krom[i.val]?).bind decodeUop = some (.kword (i.val + 3))) ∧
  (∀ r : Fin 10, 1 ≤ r.val →
    (crom[4 * r.val - 2]?).bind decodeUop = some .sub ∧ (crom[4 * r.val - 1]?).bind decodeUop = some .shr ∧
    (crom[4 * r.val]?).bind decodeUop = some .mix ∧ (crom[4 * r.val + 1]?).bind decodeUop = some (.ark r.val))

/-- 44_round_driver.md R170: the states of the source's round driver are the ranges of `upc` the table gives. -/
def Obligations.DriverStatesAreUpcRanges : Prop :=
  driverState 0 = some .adapterIn ∧ driverState 1 = some .init ∧ driverState 41 = some .done ∧
  (∀ r n : Nat, driverState n = some (.round r) ↔ (1 ≤ r ∧ r ≤ 9 ∧ 4 * r - 2 ≤ n ∧ n ≤ 4 * r + 1)) ∧
  (∀ n : Nat, driverState n = some .finalRound ↔ (38 ≤ n ∧ n ≤ 40)) ∧
  (∀ n : Nat, driverState n = none ↔ 42 ≤ n)

/-- 20_memory.md R53, 30_encoding.md R83: byte `i` lies on bits [127-8i : 120-8i] of the bus, and packing and unpacking are
inverse to each other, so no bit of a key or block is dropped. -/
def Obligations.BusPackingByteOrder : Prop :=
  (∀ (d : BitVec 128) (i : Fin 16) (j : Fin 8), ((unpackBlock d)[i]).getLsbD j.val = d.getLsbD (120 - 8 * i.val + j.val)) ∧
  (∀ (b : Block) (i : Fin 16) (j : Fin 8), (packBlock b).getLsbD (120 - 8 * i.val + j.val) = (b[i]).getLsbD j.val) ∧
  (∀ d : BitVec 128, packBlock (unpackBlock d) = d) ∧
  (∀ b : Block, unpackBlock (packBlock b) = b)

/-- 30_encoding.md R90, R91: a script's text, and a micro-operation's text, is parsed back to what it was written from. -/
def Obligations.AssemblerTextRoundTrip : Prop :=
  (∀ script : List Stmt, parseScript (scriptText script) = some script) ∧
  (∀ i : Instr, i.wf = true → i.isCommand = false → parseMicro (instrText i) = some i)

/-! ### The step -/

/-- 45_host_commands.md R190, R191: in phase `IDLE` a command offered with reset low is decoded from the port's own bits and
executed; nothing else happens but that the port sample is used up. -/
def Obligations.StepRunsOfferedCommand : Prop :=
  ∀ (s : State) (p : PortIn) (rest : List PortIn) (i : Instr),
    s.inputs = p :: rest → p.rst = false → p.cmdValid = true → s.phase = .idle →
    decode (.cmd (p.cmdOp ++ p.cmdData)) = some i →
    step s = exec i { s with inputs := rest }

/-- 41_key_scheduler.md R127, 44_round_driver.md R173: a busy step executes the micro-operation the ROM of the phase holds at
`upc`, and in the same step adds 1 to `upc`, or at the last index sets the flag and returns to `IDLE` with `upc = 0`. -/
def Obligations.StepRunsFetchedMicroOperation : Prop :=
  ∀ (s t : State) (u : BitVec 8) (i : Instr), (samplePort s).rst = false →
    decode (.uop u) = some i → exec i { s with inputs := s.inputs.tail } = .next t →
    (s.phase = .keyexp → krom[s.upc.toNat]? = some u →
      step s = .next (if s.upc = 40#6 then { t with keyValid := true, phase := .idle, upc := 0#6 }
        else { t with upc := s.upc + 1#6 })) ∧
    (s.phase = .cipher → crom[s.upc.toNat]? = some u →
      step s = .next (if s.upc = 41#6 then { t with doutValid := true, phase := .idle, upc := 0#6 }
        else { t with upc := s.upc + 1#6 }))

/-- 70_reset_and_hazards.md R241, R242: a step with `rst = 1` gives the control elements their reset values in every phase and
whatever else the host drives; `S`, `EK`, `IBUF`, `DOUT` are not written; and the status vector is 0b00001 after it. -/
def Obligations.ResetStep : Prop :=
  ∀ s : State, (samplePort s).rst = true →
    step s = .next { s with phase := .idle, upc := 0#6, keyValid := false, doutValid := false, err := 0b00#2,
                            inputs := s.inputs.tail } ∧
    status { s with phase := .idle, upc := 0#6, keyValid := false, doutValid := false, err := 0b00#2,
                    inputs := s.inputs.tail } = 0b00001#5

/-- 70_reset_and_hazards.md R242: holding reset for several steps is the same as holding it for one. -/
def Obligations.HeldResetIsOneReset : Prop :=
  ∀ (s : State) (n : Nat), 1 ≤ n → n ≤ s.inputs.length → (∀ p ∈ s.inputs.take n, p.rst = true) →
    runSteps n s =
      .next { s with phase := .idle, upc := 0#6, keyValid := false, doutValid := false, err := 0b00#2,
                     inputs := s.inputs.drop n }

/-- 60_exceptions.md R216: in phase `FAULT` no step without reset changes any of the nine elements, however long and
whatever the host offers, and the core is not ready. -/
def Obligations.FaultPhaseHolds : Prop :=
  ∀ (s : State) (n : Nat), s.phase = .fault → noReset n s →
    runSteps n s = .next { s with inputs := s.inputs.drop n } ∧ ready s = false

/-- 45_host_commands.md R191, 70_reset_and_hazards.md R245: outside phase `IDLE`, and with reset low, the step does not depend on
what is offered on the command port; in phase `IDLE` it does not while `cmd_valid = 0`. -/
def Obligations.CommandPortIgnoredUnlessAccepted : Prop :=
  ∀ (s : State) (p q : PortIn), p.rst = false → q.rst = false →
    (s.phase ≠ .idle ∨ (p.cmdValid = false ∧ q.cmdValid = false)) → stepOn p s = stepOn q s

/-- 45_host_commands.md R190: from every state of the invariant the step has a next state, whatever the host drives: there is
no state in which the core waits for anything but a command or a reset. -/
def Obligations.StepAlwaysCompletes : Prop :=
  ∀ s : State, ControlInv s → ∃ t, step s = .next t

/-- 44_round_driver.md R174: the program counter `(phase, upc)` moves only as the rule lists: to the next index, from the
last index to `(IDLE, 0)`, from `(IDLE, 0)` to `(KEYEXP, 0)` by `LOADKEY`, to `(CIPHER, 0)` by `ENCRYPT` or to `(FAULT, 0)`
by a fault, by reset to `(IDLE, 0)`, or not at all in `IDLE` and `FAULT`. -/
def Obligations.ProgramCounterMoves : Prop :=
  ∀ s t : State, ControlInv s → step s = .next t →
    ((samplePort s).rst = true ∧ t.phase = .idle ∧ t.upc = 0#6) ∨
    ((samplePort s).rst = false ∧
      ((s.phase = .keyexp ∧ s.upc.toNat < 40 ∧ t.phase = .keyexp ∧ t.upc.toNat = s.upc.toNat + 1) ∨
       (s.phase = .keyexp ∧ s.upc.toNat = 40 ∧ t.phase = .idle ∧ t.upc = 0#6) ∨
       (s.phase = .cipher ∧ s.upc.toNat < 41 ∧ t.phase = .cipher ∧ t.upc.toNat = s.upc.toNat + 1) ∨
       (s.phase = .cipher ∧ s.upc.toNat = 41 ∧ t.phase = .idle ∧ t.upc = 0#6) ∨
       (s.phase = .fault ∧ t.phase = .fault ∧ t.upc = 0#6) ∨
       (s.phase = .idle ∧ t.upc = 0#6 ∧ t.phase =
         if (samplePort s).cmdValid = false ∨ (samplePort s).cmdOp = 0b00#2 then .idle
         else if (samplePort s).cmdOp = 0b01#2 then .keyexp
         else if (samplePort s).cmdOp = 0b10#2 ∧ s.keyValid = true then .cipher
         else .fault)))

/-- 10_state.md R20, the column "written by": no step without reset changes a data element but in the situation the table
names, and no step with reset changes one at all. -/
def Obligations.DataElementsChangeOnlyByTheirWriters : Prop :=
  ∀ s t : State, step s = .next t →
    (t.S ≠ s.S → (samplePort s).rst = false ∧ s.phase = .cipher ∧ s.upc ≠ 41#6) ∧
    (t.EK ≠ s.EK → (samplePort s).rst = false ∧ s.phase = .keyexp) ∧
    (t.IBUF ≠ s.IBUF → (samplePort s).rst = false ∧ s.phase = .idle ∧ (samplePort s).cmdValid = true ∧
      ((samplePort s).cmdOp = 0b01#2 ∨ (samplePort s).cmdOp = 0b10#2)) ∧
    (t.DOUT ≠ s.DOUT → (samplePort s).rst = false ∧ s.phase = .cipher ∧ s.upc = 41#6)

/-- 10_state.md R28, R29, R30: the only steps that set or clear a flag or write the fault code. -/
def Obligations.FlagsChangeOnlyByTheirWriters : Prop :=
  ∀ s t : State, step s = .next t →
    (t.keyValid ≠ s.keyValid →
      (t.keyValid = true ∧ (samplePort s).rst = false ∧ s.phase = .keyexp ∧ s.upc = 40#6) ∨
      (t.keyValid = false ∧ ((samplePort s).rst = true ∨
        (s.phase = .idle ∧ (samplePort s).cmdValid = true ∧ (samplePort s).cmdOp = 0b01#2)))) ∧
    (t.doutValid ≠ s.doutValid →
      (t.doutValid = true ∧ (samplePort s).rst = false ∧ s.phase = .cipher ∧ s.upc = 41#6) ∨
      (t.doutValid = false ∧ ((samplePort s).rst = true ∨
        (s.phase = .idle ∧ s.keyValid = true ∧ (samplePort s).cmdValid = true ∧ (samplePort s).cmdOp = 0b10#2)))) ∧
    (t.err ≠ s.err → (samplePort s).rst = true ∨ (s.phase = .idle ∧ t.phase = .fault))

/-- 60_exceptions.md R212, R215: phase `FAULT` is entered in exactly two ways, each with its own code, and the entry writes
nothing but `err`, `phase` and `upc`. -/
def Obligations.ExactlyTwoFaultCauses : Prop :=
  ∀ s t : State, s.phase ≠ .fault → step s = .next t →
    (t.phase = .fault ↔
      ((samplePort s).rst = false ∧ s.phase = .idle ∧ (samplePort s).cmdValid = true ∧
        (((samplePort s).cmdOp = 0b10#2 ∧ s.keyValid = false) ∨ (samplePort s).cmdOp = 0b11#2))) ∧
    (t.phase = .fault → (samplePort s).cmdOp = 0b10#2 → t.err = 0b01#2) ∧
    (t.phase = .fault → (samplePort s).cmdOp = 0b11#2 → t.err = 0b10#2) ∧
    (t.phase = .fault → t.upc = 0#6 ∧ t.S = s.S ∧ t.EK = s.EK ∧ t.IBUF = s.IBUF ∧ t.DOUT = s.DOUT ∧
      t.keyValid = s.keyValid ∧ t.doutValid = s.doutValid)

/-- 10_state.md R25, R31, R32, R33; 30_encoding.md R83: `ready` is 1 exactly in `IDLE`, the flags and `err` are driven from their
elements, `dout` carries byte `i` of `DOUT` on bits [127-8i : 120-8i] while `dout_valid = 1` (nothing is said of it
otherwise), and the bits of `status` are those of the table. -/
def Obligations.OutputPortsShowTheState : Prop :=
  ∀ s : State,
    ((outputs s).ready = true ↔ s.phase = .idle) ∧ (outputs s).keyValid = s.keyValid ∧
    (outputs s).doutValid = s.doutValid ∧ (outputs s).err = s.err ∧
    (s.doutValid = true → ∀ i : Fin 16, (outputs s).dout.extractLsb' (120 - 8 * i.val) 8 = s.DOUT[i]) ∧
    ((status s).getLsbD 0 = true ↔ s.phase = .idle) ∧ (status s).getLsbD 1 = s.keyValid ∧
    (status s).getLsbD 2 = s.doutValid ∧ (status s).extractLsb' 3 2 = s.err

/-! ### Invariants -/

/-- 70_reset_and_hazards.md R241 and the model's reset contents of `EK` (log 3): the reset state meets the invariants. -/
def Obligations.ResetMeetsTheInvariants : Prop :=
  ControlInv State.reset ∧ KeyInv State.reset ∧ Memory.wf State.reset.EK ∧ status State.reset = 0b00001#5

/-- 10_state.md R27, R30, R36 (c), (d), (e): every step keeps the control invariant. -/
def Obligations.StepKeepsControlInvariant : Prop :=
  ∀ s t : State, ControlInv s → step s = .next t → ControlInv t

/-- 10_state.md R28, R36 (a); 70_reset_and_hazards.md R243: every step keeps the key invariant, so `key_valid = 1` always means
that `EK` is the whole expansion of its round-key block 0. -/
def Obligations.StepKeepsKeyInvariant : Prop :=
  ∀ s t : State, ControlInv s → KeyInv s → step s = .next t → KeyInv t

/-- The model's form of `EK` (log 3), 20_memory.md R51 (nothing above byte 175): every step keeps it. -/
def Obligations.StepKeepsMemoryForm : Prop :=
  ∀ s t : State, Memory.wf s.EK → step s = .next t → Memory.wf t.EK

/-! ### The commands -/

/-- 45_host_commands.md R192: `NOP` changes nothing, and a step that accepts it is the step without a command. -/
def Obligations.NopChangesNothing : Prop :=
  (∀ s : State, exec .nop s = .next s) ∧
  (∀ (s : State) (p : PortIn), p.rst = false → p.cmdValid = true → p.cmdOp = 0b00#2 → s.phase = .idle →
    stepOn p s = stepOn { p with cmdValid := false } s)

/-- 45_host_commands.md R193: acceptance of `LOADKEY` writes `IBUF`, clears `key_valid` and enters `(KEYEXP, 0)`; every other
element, `DOUT` and `dout_valid` among them, is unchanged; the operand's byte `i` is bits [127-8i : 120-8i]. -/
def Obligations.LoadkeyAcceptance : Prop :=
  (∀ (key : Block) (s : State),
    exec (.loadkey key) s = .next { s with IBUF := key, keyValid := false, phase := .keyexp, upc := 0#6 }) ∧
  (∀ (data : BitVec 128) (s : State), ∃ key : Block,
    exec (decodeCommand 0b01#2 data) s = .next { s with IBUF := key, keyValid := false, phase := .keyexp, upc := 0#6 } ∧
    ∀ i : Fin 16, key[i] = data.extractLsb' (120 - 8 * i.val) 8)

/-- 45_host_commands.md R194: acceptance of `ENCRYPT` with a key writes `IBUF`, clears `dout_valid` and enters `(CIPHER, 0)`;
every other element, `DOUT` and `EK` among them, is unchanged. -/
def Obligations.EncryptAcceptance : Prop :=
  (∀ (block : Block) (s : State), s.keyValid = true →
    exec (.encrypt block) s = .next { s with IBUF := block, doutValid := false, phase := .cipher, upc := 0#6 }) ∧
  (∀ (data : BitVec 128) (s : State), s.keyValid = true → ∃ block : Block,
    exec (decodeCommand 0b10#2 data) s = .next { s with IBUF := block, doutValid := false, phase := .cipher, upc := 0#6 } ∧
    ∀ i : Fin 16, block[i] = data.extractLsb' (120 - 8 * i.val) 8)

/-- 60_exceptions.md R213, R215; 45_host_commands.md R194: `ENCRYPT` without a key takes the `NoKey` fault and changes nothing else. -/
def Obligations.EncryptWithoutKeyTakesNoKey : Prop :=
  ∀ (block : Block) (s : State), s.keyValid = false →
    exec (.encrypt block) s = .next { s with err := 0b01#2, phase := .fault, upc := 0#6 }

/-- 60_exceptions.md R214, R215; 45_host_commands.md R195: the reserved opcode takes the `IllegalCommand` fault and changes nothing
else, whatever the data bits. -/
def Obligations.ReservedOpcodeTakesIllegalCommand : Prop :=
  (∀ s : State, exec .reserved0b11 s = .next { s with err := 0b10#2, phase := .fault, upc := 0#6 }) ∧
  (∀ (data : BitVec 128), decodeCommand 0b11#2 data = .reserved0b11)

/-! ### The micro-operations -/

/-- 42_block_adapter.md R143: `LDS` fills the state column by column from `IBUF`; nothing else changes. -/
def Obligations.LdsResult : Prop :=
  ∀ s : State, ∃ T : StateMatrix, exec .lds s = .next { s with S := T } ∧
    ∀ r c : Fin 4, T[r][c] = s.IBUF[r.val + 4 * c.val]

/-- 42_block_adapter.md R144: `STS` reads the state column by column into `DOUT`; nothing else changes, `S` and
`dout_valid` included. -/
def Obligations.StsResult : Prop :=
  ∀ s : State, ∃ b : Block, exec .sts s = .next { s with DOUT := b } ∧
    ∀ r c : Fin 4, b[r.val + 4 * c.val] = s.S[r][c]

/-- 43_state_transform.md R150: `SUB` replaces every byte by its S-box entry; nothing else changes. -/
def Obligations.SubResult : Prop :=
  ∀ s : State, ∃ T : StateMatrix, exec .sub s = .next { s with S := T } ∧
    ∀ r c : Fin 4, T[r][c] = sbox s.S[r][c]

/-- 43_state_transform.md R151: `SHR` rotates row `r` left by `r`; in block bytes, the new byte `i` is the old byte
`(i + 4 (i mod 4)) mod 16`; nothing else changes. -/
def Obligations.ShrResult : Prop :=
  ∀ s : State, ∃ T : StateMatrix, exec .shr s = .next { s with S := T } ∧
    (∀ r c : Fin 4, T[r][c] = s.S[r][(c.val + r.val) % 4]) ∧
    (∀ i : Fin 16, (fromState T)[i] = (fromState s.S)[(i.val + 4 * (i.val % 4)) % 16])

/-- 43_state_transform.md R152, R153: `MIX` gives byte `r` of column `c` as `2·a_r ⊕ 3·a_(r+1) ⊕ a_(r+2) ⊕ a_(r+3)` over the old
column, indices mod 4; nothing else changes. -/
def Obligations.MixResult : Prop :=
  ∀ s : State, ∃ T : StateMatrix, exec .mix s = .next { s with S := T } ∧
    ∀ r c : Fin 4, T[r][c] = xtime s.S[r][c] ^^^ mul3 s.S[(r.val + 1) % 4][c] ^^^ s.S[(r.val + 2) % 4][c] ^^^
      s.S[(r.val + 3) % 4][c]

/-- 43_state_transform.md R154: `ARK k` XORs byte `16k + r + 4c` of `EK` into the state, for every k of 0..10; nothing else
changes; in block bytes it is the XOR with the round-key bytes in order. -/
def Obligations.ArkResult : Prop :=
  ∀ (k : Nat) (s : State), k ≤ 10 → ∃ T : StateMatrix, exec (.ark k) s = .next { s with S := T } ∧
    (∀ r c : Fin 4, T[r][c] = s.S[r][c] ^^^ Memory.read s.EK (16 * k + r.val + 4 * c.val)) ∧
    (∀ i : Fin 16, (fromState T)[i] = (fromState s.S)[i] ^^^ Memory.read s.EK (16 * k + i.val))

/-- 41_key_scheduler.md R121: `KCOPY` copies `IBUF` to the bytes 0 to 15 of `EK`; every other byte and element is unchanged. -/
def Obligations.KcopyResult : Prop :=
  ∀ s : State, ∃ E : Memory, exec .kcopy s = .next { s with EK := E } ∧
    (∀ i : Fin 16, Memory.read E i.val = s.IBUF[i]) ∧
    (∀ a : Nat, 16 ≤ a → Memory.read E a = Memory.read s.EK a)

/-- 41_key_scheduler.md R122, R123, R124: `KWORD w` writes the bytes 4w to 4w+3 of `EK`: word `w-4` XOR word `w-1`, the latter
rotated, substituted and with the round constant in byte 0 when `w mod 4 = 0`; every other byte and element is unchanged. -/
def Obligations.KwordResult : Prop :=
  ∀ (w : Nat) (s : State) (h : 4 ≤ w ∧ w ≤ 43), ∃ E : Memory, exec (.kword w) s = .next { s with EK := E } ∧
    (w % 4 ≠ 0 → ∀ j : Fin 4, Memory.read E (4 * w + j.val) =
      Memory.read s.EK (4 * (w - 4) + j.val) ^^^ Memory.read s.EK (4 * (w - 1) + j.val)) ∧
    (w % 4 = 0 → ∀ j : Fin 4, Memory.read E (4 * w + j.val) =
      Memory.read s.EK (4 * (w - 4) + j.val) ^^^ sbox (Memory.read s.EK (4 * (w - 1) + (j.val + 1) % 4)) ^^^
        (if j.val = 0 then rcon (w / 4) ⟨by omega, by omega⟩ else 0#8)) ∧
    (∀ a : Nat, a < 4 * w ∨ 4 * w + 4 ≤ a → Memory.read E a = Memory.read s.EK a)

/-- 30_encoding.md R89, 43_state_transform.md R154: an index outside its range has no meaning. -/
def Obligations.IndicesOutOfRangeRefused : Prop :=
  (∀ (k : Nat) (s : State), 10 < k → exec (.ark k) s = .refused (.arkIndex k)) ∧
  (∀ (w : Nat) (s : State), w < 4 ∨ 43 < w → exec (.kword w) s = .refused (.kwordIndex w))

/-! ### Byte arithmetic and the tables -/

/-- 40_tables_and_gf.md R101, R102, R103: `xtime` and `mul3` are the products by x and x+1 in GF(2^8) modulo
x^8+x^4+x^3+x+1; an operand below 0x80 is only shifted; and `xtime` is a bijection. -/
def Obligations.XtimeIsFieldDoubling : Prop :=
  (∀ b : Byte, xtime b = gfMul b 0x02#8 ∧ mul3 b = gfMul b 0x03#8) ∧
  (∀ b : Byte, b.toNat < 0x80 → (xtime b).toNat = 2 * b.toNat) ∧
  (∀ a b : Byte, xtime a = xtime b → a = b)

/-- 40_tables_and_gf.md R105, R108 (a): `SBOX` is a permutation of the bytes; and (derived from the values of R106, from general
knowledge) no byte is its own image nor its image's complement. -/
def Obligations.SboxIsPermutation : Prop :=
  (∀ a b : Byte, sbox a = sbox b → a = b) ∧ (∀ v : Byte, ∃ a : Byte, sbox a = v) ∧
  (∀ a : Byte, sbox a ≠ a ∧ sbox a ≠ a ^^^ 0xFF#8)

/-- 40_tables_and_gf.md R106 (from general knowledge, log 7): the table is the affine image of the inverse in GF(2^8), 0
standing for the inverse of 0. -/
def Obligations.SboxIsAffineOfInverse : Prop :=
  sbox 0#8 = affine 0#8 ∧ ∀ a : Byte, a ≠ 0#8 → ∃ i : Byte, gfMul a i = 0x01#8 ∧ sbox a = affine i

/-- 40_tables_and_gf.md R107 (from general knowledge, log 7): the round constants are the powers of x. -/
def Obligations.RconIsIteratedDoubling : Prop :=
  rcon 1 ⟨by omega, by omega⟩ = 0x01#8 ∧
  ∀ (i : Nat) (h : 1 ≤ i ∧ i ≤ 9), rcon (i + 1) ⟨by omega, by omega⟩ = xtime (rcon i ⟨h.1, by omega⟩)

/-! ### The transforms as functions -/

/-- 42_block_adapter.md R142: the block adapter is invertible; that it is so the other way round, and that a round key is the
state of its 16 bytes (with R155), are the spec's own inference. -/
def Obligations.BlockAdapterInvertible : Prop :=
  (∀ b : Block, fromState (toState b) = b) ∧ (∀ T : StateMatrix, toState (fromState T) = T) ∧
  (∀ (E : Memory) (k : Fin 11), roundKey E k = toState (Vector.ofFn fun i : Fin 16 => Memory.read E (16 * k.val + i.val)))

/-- 43_state_transform.md R152, R153; 40_tables_and_gf.md R101: `mixcol` is the product of the rule's matrix with the column over
GF(2^8), and it is linear over XOR. -/
def Obligations.MixcolIsFieldMatrixProduct : Prop :=
  (∀ (a : Word) (i : Fin 4), (mixcol a)[i] =
    gfMul a[0] mixMatrix[i][0] ^^^ gfMul a[1] mixMatrix[i][1] ^^^ gfMul a[2] mixMatrix[i][2] ^^^ gfMul a[3] mixMatrix[i][3]) ∧
  (∀ a b : Word, mixcol (xorWord a b) = xorWord (mixcol a) (mixcol b))

/-- 43_state_transform.md R151, R157 (b): `SHR` four times is the identity, and twice is not. -/
def Obligations.ShiftRowsFourTimes : Prop :=
  (∀ X : StateMatrix, shiftRows (shiftRows (shiftRows (shiftRows X))) = X) ∧
  (∃ X : StateMatrix, shiftRows (shiftRows X) ≠ X)

/-- 43_state_transform.md R157 (a), (c), (d): `SUB` is a bijection on states, `ARK k` is its own inverse, `SUB` and `SHR` commute. -/
def Obligations.TransformLaws : Prop :=
  (∀ X Y : StateMatrix, subBytes X = subBytes Y → X = Y) ∧ (∀ Y : StateMatrix, ∃ X : StateMatrix, subBytes X = Y) ∧
  (∀ (E : Memory) (X : StateMatrix) (k : Fin 11), addRoundKey E (addRoundKey E X k) k = X) ∧
  (∀ X : StateMatrix, shiftRows (subBytes X) = subBytes (shiftRows X))

/-- 43_state_transform.md R155: the round-key view reads `EK[16k + r + 4c]`, it is the state of the bytes 16k to 16k+15, and its
column `c` is the key-schedule word `4k + c`, byte `j` in row `j` (the spec's own inference, with 20_memory.md R51). -/
def Obligations.RoundKeyColumnsAreWords : Prop :=
  (∀ (E : Memory) (k : Fin 11) (r c : Fin 4), (roundKey E k)[r][c] = Memory.read E (16 * k.val + r.val + 4 * c.val)) ∧
  (∀ (E : Memory) (k : Fin 11), roundKey E k = toState (Vector.ofFn fun i : Fin 16 => Memory.read E (16 * k.val + i.val))) ∧
  (∀ (E : Memory) (k : Fin 11) (c r : Fin 4), (roundKey E k)[r][c] = (readWord E ⟨4 * k.val + c.val, by omega⟩)[r])

/-- 41_key_scheduler.md R121, R122, R125, R128: in `Expand(K)` the first 16 bytes are the key, and every later word is the word
step of the words before it in the finished key schedule itself; so `Expand` is injective. -/
def Obligations.ExpandRecurrence : Prop :=
  (∀ (key : Block) (i : Fin 16), Memory.read (expand key) i.val = key[i]) ∧
  (∀ (key : Block) (w : Nat) (h : 4 ≤ w ∧ w ≤ 43),
    readWord (expand key) ⟨w, by omega⟩ = nextWord (expand key) w h) ∧
  (∀ key key' : Block, expand key = expand key' → key = key')

/-- 41_key_scheduler.md R125: the previous content of `EK` has no influence on the expansion; in canonical form the result is
the same data. -/
def Obligations.ExpandDependsOnKeyOnly : Prop :=
  ∀ (E : Memory) (key : Block),
    sameWords 44 (expandUpTo E key 40 (Nat.le_refl 40)) (expand key) ∧
    (Memory.wf E → expandUpTo E key 40 (Nat.le_refl 40) = expand key)

/-- 44_round_driver.md R178: for a fixed expanded key the cipher is injective on blocks (derived: every step of it is, `MIX`
by the order of its matrix). -/
def Obligations.CipherInjective : Prop :=
  ∀ (E : Memory) (b b' : Block), cipher E b = cipher E b' → b = b'

/-- 44_round_driver.md R178: the source's known-answer vector (with the table values of R106 and R107, from general knowledge). -/
def Obligations.KnownAnswer : Prop :=
  packBlock (cipher (expand (unpackBlock 0#128)) (unpackBlock 0#128)) = 0x66e94bd4ef8a2c3b884cfa59ca342b2e#128

/-! ### Whole commands -/

/-- 45_host_commands.md R197: a `LOADKEY` accepted and not reset in its 42 steps leaves the expanded key in `EK`, the key in
`IBUF`, `key_valid = 1`, the core idle and everything else as it was; during its busy steps the core is not ready and has
no valid key. -/
def Obligations.LoadkeyWholeCommand : Prop :=
  ∀ (s : State) (data : BitVec 128), s.phase = .idle → noReset 42 s →
    (samplePort s).cmdValid = true → (samplePort s).cmdOp = 0b01#2 → (samplePort s).cmdData = data →
    (∃ E : Memory, sameWords 44 E (expand (unpackBlock data)) ∧
      (Memory.wf s.EK → E = expand (unpackBlock data)) ∧
      runSteps 42 s =
        .next { s with EK := E, IBUF := unpackBlock data, keyValid := true, phase := .idle, upc := 0#6,
                       inputs := s.inputs.drop 42 }) ∧
    (∀ n : Nat, 1 ≤ n → n ≤ 41 → ∃ t, runSteps n s = .next t ∧ ready t = false ∧ t.keyValid = false)

/-- 44_round_driver.md R179: from phase `CIPHER` with `upc = 0` the 42 steps of `CROM` compute the function `Cipher`. -/
def Obligations.CipherStepsComputeCipher : Prop :=
  ∀ s : State, s.phase = .cipher → s.upc = 0#6 → noReset 42 s →
    ∃ X : StateMatrix, runSteps 42 s =
      .next { s with S := X, DOUT := cipher s.EK s.IBUF, doutValid := true, phase := .idle, upc := 0#6,
                     inputs := s.inputs.drop 42 } ∧
      X = toState (cipher s.EK s.IBUF)

/-- 45_host_commands.md R198, 44_round_driver.md R180: an `ENCRYPT` accepted with a key and not reset in its 43 steps leaves the
ciphertext in `DOUT` with `dout_valid = 1`, whatever `S`, `DOUT` and `IBUF` held before; if `EK` is the expansion of a key,
the port shows the encryption under that key; during its busy steps the core is not ready and `dout_valid = 0`. -/
def Obligations.EncryptWholeCommand : Prop :=
  ∀ (s : State) (data : BitVec 128), s.phase = .idle → s.keyValid = true → noReset 43 s →
    (samplePort s).cmdValid = true → (samplePort s).cmdOp = 0b10#2 → (samplePort s).cmdData = data →
    (∃ t : State, runSteps 43 s = .next t ∧
      t = { s with S := toState (cipher s.EK (unpackBlock data)), DOUT := cipher s.EK (unpackBlock data),
                   IBUF := unpackBlock data, doutValid := true, phase := .idle, upc := 0#6, inputs := s.inputs.drop 43 } ∧
      (∀ key : Block, sameWords 44 s.EK (expand key) →
        doutPort t = packBlock (cipher (expand key) (unpackBlock data)))) ∧
    (∀ n : Nat, 1 ≤ n → n ≤ 42 → ∃ t, runSteps n s = .next t ∧ ready t = false ∧ t.doutValid = false)

/-- 70_reset_and_hazards.md R250: a core that is not reset leaves a busy phase within 42 steps. -/
def Obligations.BusyPhaseEnds : Prop :=
  ∀ s : State, ControlInv s → busy s = true → noReset 42 s →
    ∃ n t, n ≤ 42 ∧ runSteps n s = .next t ∧ t.phase = .idle

/-- 70_reset_and_hazards.md R243: a reset in phase `KEYEXP` at `upc = u` after the acceptance of `LOADKEY K` over an old content
of `EK` leaves the words 0 to u+2 of the new schedule (none for u = 0), every later byte as it was, and no valid key. -/
def Obligations.ResetDuringExpansion : Prop :=
  ∀ (s : State) (u : Nat), s.phase = .idle → (samplePort s).rst = false → (samplePort s).cmdValid = true →
    (samplePort s).cmdOp = 0b01#2 → u ≤ 40 → u + 2 ≤ s.inputs.length → noReset (u + 1) s →
    (∀ p, s.inputs[u + 1]? = some p → p.rst = true) →
    ∃ t, runSteps (u + 2) s = .next t ∧ t.phase = .idle ∧ t.upc = 0#6 ∧ t.keyValid = false ∧
      (u = 0 → t.EK = s.EK) ∧
      (1 ≤ u → sameWords (u + 3) t.EK (expand (unpackBlock (samplePort s).cmdData))) ∧
      (1 ≤ u → ∀ a : Nat, 4 * (u + 3) ≤ a → Memory.read t.EK a = Memory.read s.EK a)

/-! ### What cannot be learned -/

/-- 44_round_driver.md R170, 70_reset_and_hazards.md R250: the sequencer's path does not depend on the data: two cores that agree
on the control elements, driven with the same commands but any keys and blocks, agree on the control elements for ever. -/
def Obligations.ControlIndependentOfData : Prop :=
  ∀ (s t : State) (n : Nat), ControlInv s → ControlInv t →
    s.phase = t.phase → s.upc = t.upc → s.keyValid = t.keyValid → s.doutValid = t.doutValid → s.err = t.err →
    s.inputs.map (fun p => (p.rst, p.cmdValid, p.cmdOp)) = t.inputs.map (fun p => (p.rst, p.cmdValid, p.cmdOp)) →
    ∃ s' t', runSteps n s = .next s' ∧ runSteps n t = .next t' ∧
      s'.phase = t'.phase ∧ s'.upc = t'.upc ∧ s'.keyValid = t'.keyValid ∧ s'.doutValid = t'.doutValid ∧ s'.err = t'.err

/-- 10_state.md R23, 70_reset_and_hazards.md R243: no port shows the key, the expanded key or an intermediate state: two cores
that differ in `S`, `EK`, `IBUF` and in the keys and blocks offered show the same outputs after any number of steps in
which no encryption has ended. -/
def Obligations.PortsHideKeyMaterial : Prop :=
  ∀ (s t : State) (n : Nat), ControlInv s → ControlInv t →
    s.phase = t.phase → s.upc = t.upc → s.keyValid = t.keyValid → s.doutValid = t.doutValid → s.err = t.err →
    s.DOUT = t.DOUT →
    s.inputs.map (fun p => (p.rst, p.cmdValid, p.cmdOp)) = t.inputs.map (fun p => (p.rst, p.cmdValid, p.cmdOp)) →
    (∀ m < n, ∀ x, runSteps m s = .next x → ¬ (x.phase = .cipher ∧ x.upc = 41#6)) →
    ∃ s' t', runSteps n s = .next s' ∧ runSteps n t = .next t' ∧
      outputs s' = outputs t'

/-! ### Host scripts -/

/-- 45_host_commands.md R199, R201; 44_round_driver.md R180: the ECB stream `K, B1, ..., Bn` completes, on an idle core as it
is and as a whole run (a reset, then the script) on a core in any state; the ciphertexts read are `Cipher(Expand(K), Bi)` in
order, each independent of the other blocks and of what the core held. (The host's reading convention is log 11.) -/
def Obligations.EcbStreamResults : Prop :=
  (∀ (s : State) (key : Block) (blocks : List Block) (n : Nat), s.phase = .idle → 42 + 43 * blocks.length ≤ n →
    ∃ x, runSession n (Session.start s (ecb key blocks)) = .next x ∧ safeRun x ∧
      x.core.err = s.err ∧ x.core.keyValid = true ∧
      x.results = blocks.map fun b => packBlock (cipher (expand key) b)) ∧
  (∀ (s : State) (key : Block) (blocks : List Block) (n : Nat), 42 + 43 * blocks.length ≤ n →
    ∃ x, runScript n s (ecb key blocks) = .next x ∧ safeRun x ∧
      x.core.err = 0b00#2 ∧ x.core.keyValid = true ∧
      x.results = blocks.map fun b => packBlock (cipher (expand key) b))

/-- 45_host_commands.md R201, 60_exceptions.md R213: a script that offers a block before a key ends faulted with the code of
`NoKey`, has no result, and its later statements are never taken, a `RESET` among them: on an idle core without a key, and
as a whole run (a reset, then the script) on a core in any state. (The host's conventions are log 11.) -/
def Obligations.BlockBeforeKeyEndsFaulted : Prop :=
  (∀ (s : State) (block : Block) (rest : List Stmt) (n : Nat), s.phase = .idle → s.keyValid = false → 1 ≤ n →
    ∃ x, runSession n (Session.start s (.encrypt block :: rest)) = .next x ∧ runStatus x = .faulted ∧
      x.core.err = 0b01#2 ∧ x.pending = rest ∧ x.results = []) ∧
  (∀ (s : State) (block : Block) (rest : List Stmt) (n : Nat), 1 ≤ n →
    ∃ x, runScript n s (.encrypt block :: rest) = .next x ∧ runStatus x = .faulted ∧
      x.core.err = 0b01#2 ∧ x.pending = rest ∧ x.results = [])
end

