-- ==== Sys2Proof/Laws/State.lean ====
section
/-! SUPPORT. One lemma for each field of State and each update: what the update makes of the field. -/

namespace Sys2Proof.Machine

open Sys2Proof

@[simp] theorem State.withS_S (s : State) (x : StateMatrix) : (s.withS x).S = x := rfl
@[simp] theorem State.withS_EK (s : State) (x : StateMatrix) : (s.withS x).EK = s.EK := rfl
@[simp] theorem State.withS_IBUF (s : State) (x : StateMatrix) : (s.withS x).IBUF = s.IBUF := rfl
@[simp] theorem State.withS_DOUT (s : State) (x : StateMatrix) : (s.withS x).DOUT = s.DOUT := rfl
@[simp] theorem State.withS_phase (s : State) (x : StateMatrix) : (s.withS x).phase = s.phase := rfl
@[simp] theorem State.withS_upc (s : State) (x : StateMatrix) : (s.withS x).upc = s.upc := rfl
@[simp] theorem State.withS_keyValid (s : State) (x : StateMatrix) : (s.withS x).keyValid = s.keyValid := rfl
@[simp] theorem State.withS_doutValid (s : State) (x : StateMatrix) : (s.withS x).doutValid = s.doutValid := rfl
@[simp] theorem State.withS_err (s : State) (x : StateMatrix) : (s.withS x).err = s.err := rfl
@[simp] theorem State.withS_inputs (s : State) (x : StateMatrix) : (s.withS x).inputs = s.inputs := rfl

@[simp] theorem State.withEK_S (s : State) (x : Memory) : (s.withEK x).S = s.S := rfl
@[simp] theorem State.withEK_EK (s : State) (x : Memory) : (s.withEK x).EK = x := rfl
@[simp] theorem State.withEK_IBUF (s : State) (x : Memory) : (s.withEK x).IBUF = s.IBUF := rfl
@[simp] theorem State.withEK_DOUT (s : State) (x : Memory) : (s.withEK x).DOUT = s.DOUT := rfl
@[simp] theorem State.withEK_phase (s : State) (x : Memory) : (s.withEK x).phase = s.phase := rfl
@[simp] theorem State.withEK_upc (s : State) (x : Memory) : (s.withEK x).upc = s.upc := rfl
@[simp] theorem State.withEK_keyValid (s : State) (x : Memory) : (s.withEK x).keyValid = s.keyValid := rfl
@[simp] theorem State.withEK_doutValid (s : State) (x : Memory) : (s.withEK x).doutValid = s.doutValid := rfl
@[simp] theorem State.withEK_err (s : State) (x : Memory) : (s.withEK x).err = s.err := rfl
@[simp] theorem State.withEK_inputs (s : State) (x : Memory) : (s.withEK x).inputs = s.inputs := rfl

@[simp] theorem State.withIBUF_S (s : State) (x : Block) : (s.withIBUF x).S = s.S := rfl
@[simp] theorem State.withIBUF_EK (s : State) (x : Block) : (s.withIBUF x).EK = s.EK := rfl
@[simp] theorem State.withIBUF_IBUF (s : State) (x : Block) : (s.withIBUF x).IBUF = x := rfl
@[simp] theorem State.withIBUF_DOUT (s : State) (x : Block) : (s.withIBUF x).DOUT = s.DOUT := rfl
@[simp] theorem State.withIBUF_phase (s : State) (x : Block) : (s.withIBUF x).phase = s.phase := rfl
@[simp] theorem State.withIBUF_upc (s : State) (x : Block) : (s.withIBUF x).upc = s.upc := rfl
@[simp] theorem State.withIBUF_keyValid (s : State) (x : Block) : (s.withIBUF x).keyValid = s.keyValid := rfl
@[simp] theorem State.withIBUF_doutValid (s : State) (x : Block) : (s.withIBUF x).doutValid = s.doutValid := rfl
@[simp] theorem State.withIBUF_err (s : State) (x : Block) : (s.withIBUF x).err = s.err := rfl
@[simp] theorem State.withIBUF_inputs (s : State) (x : Block) : (s.withIBUF x).inputs = s.inputs := rfl

@[simp] theorem State.withDOUT_S (s : State) (x : Block) : (s.withDOUT x).S = s.S := rfl
@[simp] theorem State.withDOUT_EK (s : State) (x : Block) : (s.withDOUT x).EK = s.EK := rfl
@[simp] theorem State.withDOUT_IBUF (s : State) (x : Block) : (s.withDOUT x).IBUF = s.IBUF := rfl
@[simp] theorem State.withDOUT_DOUT (s : State) (x : Block) : (s.withDOUT x).DOUT = x := rfl
@[simp] theorem State.withDOUT_phase (s : State) (x : Block) : (s.withDOUT x).phase = s.phase := rfl
@[simp] theorem State.withDOUT_upc (s : State) (x : Block) : (s.withDOUT x).upc = s.upc := rfl
@[simp] theorem State.withDOUT_keyValid (s : State) (x : Block) : (s.withDOUT x).keyValid = s.keyValid := rfl
@[simp] theorem State.withDOUT_doutValid (s : State) (x : Block) : (s.withDOUT x).doutValid = s.doutValid := rfl
@[simp] theorem State.withDOUT_err (s : State) (x : Block) : (s.withDOUT x).err = s.err := rfl
@[simp] theorem State.withDOUT_inputs (s : State) (x : Block) : (s.withDOUT x).inputs = s.inputs := rfl

@[simp] theorem State.withPc_S (s : State) (p : Phase) (n : BitVec 6) : (s.withPc p n).S = s.S := rfl
@[simp] theorem State.withPc_EK (s : State) (p : Phase) (n : BitVec 6) : (s.withPc p n).EK = s.EK := rfl
@[simp] theorem State.withPc_IBUF (s : State) (p : Phase) (n : BitVec 6) : (s.withPc p n).IBUF = s.IBUF := rfl
@[simp] theorem State.withPc_DOUT (s : State) (p : Phase) (n : BitVec 6) : (s.withPc p n).DOUT = s.DOUT := rfl
@[simp] theorem State.withPc_phase (s : State) (p : Phase) (n : BitVec 6) : (s.withPc p n).phase = p := rfl
@[simp] theorem State.withPc_upc (s : State) (p : Phase) (n : BitVec 6) : (s.withPc p n).upc = n := rfl
@[simp] theorem State.withPc_keyValid (s : State) (p : Phase) (n : BitVec 6) : (s.withPc p n).keyValid = s.keyValid := rfl
@[simp] theorem State.withPc_doutValid (s : State) (p : Phase) (n : BitVec 6) : (s.withPc p n).doutValid = s.doutValid := rfl
@[simp] theorem State.withPc_err (s : State) (p : Phase) (n : BitVec 6) : (s.withPc p n).err = s.err := rfl
@[simp] theorem State.withPc_inputs (s : State) (p : Phase) (n : BitVec 6) : (s.withPc p n).inputs = s.inputs := rfl

@[simp] theorem State.withKeyValid_S (s : State) (x : Bool) : (s.withKeyValid x).S = s.S := rfl
@[simp] theorem State.withKeyValid_EK (s : State) (x : Bool) : (s.withKeyValid x).EK = s.EK := rfl
@[simp] theorem State.withKeyValid_IBUF (s : State) (x : Bool) : (s.withKeyValid x).IBUF = s.IBUF := rfl
@[simp] theorem State.withKeyValid_DOUT (s : State) (x : Bool) : (s.withKeyValid x).DOUT = s.DOUT := rfl
@[simp] theorem State.withKeyValid_phase (s : State) (x : Bool) : (s.withKeyValid x).phase = s.phase := rfl
@[simp] theorem State.withKeyValid_upc (s : State) (x : Bool) : (s.withKeyValid x).upc = s.upc := rfl
@[simp] theorem State.withKeyValid_keyValid (s : State) (x : Bool) : (s.withKeyValid x).keyValid = x := rfl
@[simp] theorem State.withKeyValid_doutValid (s : State) (x : Bool) : (s.withKeyValid x).doutValid = s.doutValid := rfl
@[simp] theorem State.withKeyValid_err (s : State) (x : Bool) : (s.withKeyValid x).err = s.err := rfl
@[simp] theorem State.withKeyValid_inputs (s : State) (x : Bool) : (s.withKeyValid x).inputs = s.inputs := rfl

@[simp] theorem State.withDoutValid_S (s : State) (x : Bool) : (s.withDoutValid x).S = s.S := rfl
@[simp] theorem State.withDoutValid_EK (s : State) (x : Bool) : (s.withDoutValid x).EK = s.EK := rfl
@[simp] theorem State.withDoutValid_IBUF (s : State) (x : Bool) : (s.withDoutValid x).IBUF = s.IBUF := rfl
@[simp] theorem State.withDoutValid_DOUT (s : State) (x : Bool) : (s.withDoutValid x).DOUT = s.DOUT := rfl
@[simp] theorem State.withDoutValid_phase (s : State) (x : Bool) : (s.withDoutValid x).phase = s.phase := rfl
@[simp] theorem State.withDoutValid_upc (s : State) (x : Bool) : (s.withDoutValid x).upc = s.upc := rfl
@[simp] theorem State.withDoutValid_keyValid (s : State) (x : Bool) : (s.withDoutValid x).keyValid = s.keyValid := rfl
@[simp] theorem State.withDoutValid_doutValid (s : State) (x : Bool) : (s.withDoutValid x).doutValid = x := rfl
@[simp] theorem State.withDoutValid_err (s : State) (x : Bool) : (s.withDoutValid x).err = s.err := rfl
@[simp] theorem State.withDoutValid_inputs (s : State) (x : Bool) : (s.withDoutValid x).inputs = s.inputs := rfl

@[simp] theorem State.withErr_S (s : State) (x : BitVec 2) : (s.withErr x).S = s.S := rfl
@[simp] theorem State.withErr_EK (s : State) (x : BitVec 2) : (s.withErr x).EK = s.EK := rfl
@[simp] theorem State.withErr_IBUF (s : State) (x : BitVec 2) : (s.withErr x).IBUF = s.IBUF := rfl
@[simp] theorem State.withErr_DOUT (s : State) (x : BitVec 2) : (s.withErr x).DOUT = s.DOUT := rfl
@[simp] theorem State.withErr_phase (s : State) (x : BitVec 2) : (s.withErr x).phase = s.phase := rfl
@[simp] theorem State.withErr_upc (s : State) (x : BitVec 2) : (s.withErr x).upc = s.upc := rfl
@[simp] theorem State.withErr_keyValid (s : State) (x : BitVec 2) : (s.withErr x).keyValid = s.keyValid := rfl
@[simp] theorem State.withErr_doutValid (s : State) (x : BitVec 2) : (s.withErr x).doutValid = s.doutValid := rfl
@[simp] theorem State.withErr_err (s : State) (x : BitVec 2) : (s.withErr x).err = x := rfl
@[simp] theorem State.withErr_inputs (s : State) (x : BitVec 2) : (s.withErr x).inputs = s.inputs := rfl

@[simp] theorem State.withInputs_S (s : State) (x : List PortIn) : (s.withInputs x).S = s.S := rfl
@[simp] theorem State.withInputs_EK (s : State) (x : List PortIn) : (s.withInputs x).EK = s.EK := rfl
@[simp] theorem State.withInputs_IBUF (s : State) (x : List PortIn) : (s.withInputs x).IBUF = s.IBUF := rfl
@[simp] theorem State.withInputs_DOUT (s : State) (x : List PortIn) : (s.withInputs x).DOUT = s.DOUT := rfl
@[simp] theorem State.withInputs_phase (s : State) (x : List PortIn) : (s.withInputs x).phase = s.phase := rfl
@[simp] theorem State.withInputs_upc (s : State) (x : List PortIn) : (s.withInputs x).upc = s.upc := rfl
@[simp] theorem State.withInputs_keyValid (s : State) (x : List PortIn) : (s.withInputs x).keyValid = s.keyValid := rfl
@[simp] theorem State.withInputs_doutValid (s : State) (x : List PortIn) : (s.withInputs x).doutValid = s.doutValid := rfl
@[simp] theorem State.withInputs_err (s : State) (x : List PortIn) : (s.withInputs x).err = s.err := rfl
@[simp] theorem State.withInputs_inputs (s : State) (x : List PortIn) : (s.withInputs x).inputs = x := rfl

end Sys2Proof.Machine
end

