-- ==== Sys2Proof/Laws/Memory.lean ====
section
/-! SUPPORT. The memory `EK`: what a read gives after a write, that every write keeps the canonical form, and that
memories in canonical form are equal when all their bytes are. -/

namespace Sys2Proof.Machine

open Sys2Proof

@[simp] theorem Memory.read_nil (a : Nat) : Memory.read [] a = Memory.unlisted := rfl

theorem Memory.read_cons (c : Host.Cell) (m : Memory) (a : Nat) :
    Memory.read (c :: m) a = if c.1 = a then c.2 else Memory.read m a := rfl

theorem Memory.read_drop (m : Memory) (a a' : Nat) :
    Memory.read (Memory.drop m a) a' = if a' = a then Memory.unlisted else Memory.read m a' := by
  induction m with
  | nil => simp [Memory.drop]
  | cons c m ih =>
    obtain ⟨x, v⟩ := c
    by_cases hx : x = a
    · subst hx; simp only [Memory.drop, if_true, ih, Memory.read_cons]
      split <;> [rfl; (rw [if_neg]; intro h; simp_all)]
    · simp only [Memory.drop, if_neg hx, Memory.read_cons, ih]
      by_cases h : x = a'
      · subst h; simp [hx]
      · simp [h]

/-- Placing a cell that is not listed yet. -/
theorem Memory.read_place (m : Memory) (a : Nat) (b : Byte) (h : ∀ c ∈ m, c.1 ≠ a) (a' : Nat) :
    Memory.read (Memory.place a b m) a' = if a' = a then b else Memory.read m a' := by
  induction m with
  | nil => simp only [Memory.place, Memory.read_cons, eq_comm (a := a)]
  | cons c m ih =>
    obtain ⟨x, v⟩ := c
    have hx : x ≠ a := h (x, v) (by simp)
    have ih := ih (fun c hc => h c (by simp [hc]))
    simp only [Memory.place]
    split
    · simp only [Memory.read_cons, ih]
      by_cases e : x = a'
      · subst e; simp [hx]
      · simp [e]
    · simp only [Memory.read_cons, eq_comm (a := a)]

theorem Memory.mem_drop {m : Memory} {a : Nat} {c : Host.Cell} : c ∈ Memory.drop m a ↔ c ∈ m ∧ c.1 ≠ a := by
  induction m with
  | nil => simp [Memory.drop]
  | cons d m ih =>
    obtain ⟨x, v⟩ := d
    by_cases hx : x = a
    · subst hx
      simp only [Memory.drop, if_true, ih, List.mem_cons]
      constructor
      · rintro ⟨h, h'⟩; exact ⟨.inr h, h'⟩
      · rintro ⟨rfl | h, h'⟩
        · exact absurd rfl h'
        · exact ⟨h, h'⟩
    · simp only [Memory.drop, if_neg hx, List.mem_cons, ih]
      constructor
      · rintro (rfl | ⟨h, h'⟩)
        · exact ⟨.inl rfl, hx⟩
        · exact ⟨.inr h, h'⟩
      · rintro ⟨rfl | h, h'⟩
        · exact .inl rfl
        · exact .inr ⟨h, h'⟩

theorem Memory.mem_place {m : Memory} {a : Nat} {b : Byte} {c : Host.Cell} :
    c ∈ Memory.place a b m ↔ c = (a, b) ∨ c ∈ m := by
  induction m with
  | nil => simp [Memory.place]
  | cons d m ih =>
    obtain ⟨x, v⟩ := d
    simp only [Memory.place]
    split
    · simp only [List.mem_cons, ih]; tauto
    · simp only [List.mem_cons]

/-- A read after a write: the byte written at its address, every other byte as before. -/
@[simp] theorem Memory.read_write (m : Memory) (a : Nat) (b : Byte) (a' : Nat) :
    Memory.read (Memory.write m a b) a' = if a' = a then b else Memory.read m a' := by
  unfold Memory.write
  split
  next h => rw [Memory.read_drop, h]
  next h =>
    rw [Memory.read_place _ _ _ (fun c hc => (Memory.mem_drop.mp hc).2), Memory.read_drop]
    split <;> rfl

theorem Memory.read_writeBytes (bs : List Byte) (m : Memory) (a a' : Nat) :
    Memory.read (Memory.writeBytes m a bs) a' =
      if a ≤ a' ∧ a' < a + bs.length then bs.getD (a' - a) Memory.unlisted else Memory.read m a' := by
  induction bs generalizing m a with
  | nil => simp only [Memory.writeBytes, List.length_nil]; rw [if_neg]; omega
  | cons b bs ih =>
    simp only [Memory.writeBytes, ih, Memory.read_write, List.length_cons]
    by_cases h0 : a' = a
    · subst h0; rw [if_neg (by omega), if_pos rfl, if_pos (by omega)]; simp
    · by_cases h1 : a + 1 ≤ a' ∧ a' < a + 1 + bs.length
      · rw [if_pos h1, if_pos (by omega)]
        obtain ⟨k, hk⟩ : ∃ k, a' - a = k + 1 := ⟨a' - a - 1, by omega⟩
        rw [hk, List.getD_cons_succ]; congr 1; omega
      · rw [if_neg h1, if_neg h0, if_neg (by omega)]

theorem Memory.drop_wf {m : Memory} (h : Memory.wf m) (a : Nat) : Memory.wf (Memory.drop m a) := by
  obtain ⟨hs, hc⟩ := h
  refine ⟨?_, fun c hm => hc c (Memory.mem_drop.mp hm).1⟩
  clear hc
  induction m with
  | nil => exact List.Pairwise.nil
  | cons d m ih =>
    obtain ⟨x, v⟩ := d
    rw [List.pairwise_cons] at hs
    simp only [Memory.drop]
    split
    · exact ih hs.2
    · exact List.pairwise_cons.mpr ⟨fun c hm => hs.1 c (Memory.mem_drop.mp hm).1, ih hs.2⟩

theorem Memory.place_wf {m : Memory} (h : Memory.wf m) {a : Nat} {b : Byte} (ha : a < 176) (hb : b ≠ Memory.unlisted)
    (hn : ∀ c ∈ m, c.1 ≠ a) : Memory.wf (Memory.place a b m) := by
  obtain ⟨hs, hc⟩ := h
  refine ⟨?_, fun c hm => ?_⟩
  · clear hc
    induction m with
    | nil => simp [Memory.place]
    | cons d m ih =>
      obtain ⟨x, v⟩ := d
      have hxa : x ≠ a := hn (x, v) (by simp)
      rw [List.pairwise_cons] at hs
      simp only [Memory.place]
      split
      next hx =>
        refine List.pairwise_cons.mpr ⟨fun c hm => ?_, ih (fun c hm => hn c (by simp [hm])) hs.2⟩
        rcases Memory.mem_place.mp hm with rfl | hm
        · exact hx
        · exact hs.1 c hm
      next hx =>
        refine List.pairwise_cons.mpr ⟨fun c hm => ?_, List.pairwise_cons.mpr hs⟩
        rcases List.mem_cons.mp hm with rfl | hm
        · show a < x; omega
        · exact Nat.lt_trans (by show a < x; omega) (hs.1 c hm)
  · rcases Memory.mem_place.mp hm with rfl | hm
    · exact ⟨ha, hb⟩
    · exact hc c hm

/-- A write inside 0..175 keeps the canonical form. -/
theorem Memory.write_wf {m : Memory} (h : Memory.wf m) {a : Nat} (ha : a < 176) (b : Byte) :
    Memory.wf (Memory.write m a b) := by
  unfold Memory.write
  split
  · exact Memory.drop_wf h a
  next hb => exact Memory.place_wf (Memory.drop_wf h a) ha hb (fun c hc => (Memory.mem_drop.mp hc).2)

theorem Memory.writeBytes_wf (bs : List Byte) {m : Memory} (h : Memory.wf m) {a : Nat} (ha : a + bs.length ≤ 176) :
    Memory.wf (Memory.writeBytes m a bs) := by
  induction bs generalizing m a with
  | nil => exact h
  | cons b bs ih =>
    simp only [List.length_cons] at ha
    exact ih (Memory.write_wf h (by omega) b) (by omega)

theorem Memory.wf_tail {c : Host.Cell} {m : Memory} (h : Memory.wf (c :: m)) : Memory.wf m :=
  ⟨(List.pairwise_cons.mp h.1).2, fun d hd => h.2 d (by simp [hd])⟩

/-- In canonical form an address below the first one listed reads as unlisted. -/
theorem Memory.read_below {m : Memory} {a : Nat} (h : ∀ c ∈ m, a < c.1) : Memory.read m a = Memory.unlisted := by
  induction m with
  | nil => rfl
  | cons c m ih =>
    rw [Memory.read_cons, if_neg (by have := h c (by simp); omega)]
    exact ih fun d hd => h d (by simp [hd])

/-- Two memories in canonical form whose bytes are all equal are the same data. -/
theorem Memory.ext_of_wf {m n : Memory} (hm : Memory.wf m) (hn : Memory.wf n)
    (h : ∀ a, a < 176 → Memory.read m a = Memory.read n a) : m = n := by
  induction m generalizing n with
  | nil =>
    cases n with
    | nil => rfl
    | cons d n =>
      have hd := hn.2 d (by simp)
      have := h d.1 hd.1
      rw [Memory.read_nil, Memory.read_cons, if_pos rfl] at this
      exact absurd this.symm hd.2
  | cons c m ih =>
    have hc := hm.2 c (by simp)
    have hcm := (List.pairwise_cons.mp hm.1).1
    cases n with
    | nil =>
      have := h c.1 hc.1
      rw [Memory.read_nil, Memory.read_cons, if_pos rfl] at this
      exact absurd this hc.2
    | cons d n =>
      have hd := hn.2 d (by simp)
      have hdn := (List.pairwise_cons.mp hn.1).1
      have hcd : c.1 = d.1 := by
        rcases Nat.lt_trichotomy c.1 d.1 with hlt | he | hgt
        · have := h c.1 hc.1
          rw [Memory.read_cons, if_pos rfl, Memory.read_below (m := d :: n)] at this
          · exact absurd this hc.2
          · intro e he; rcases List.mem_cons.mp he with rfl | he
            · exact hlt
            · exact Nat.lt_trans hlt (hdn e he)
        · exact he
        · have := h d.1 hd.1
          rw [Memory.read_cons d, if_pos rfl, Memory.read_below (m := c :: m)] at this
          · exact absurd this.symm hd.2
          · intro e he; rcases List.mem_cons.mp he with rfl | he
            · exact hgt
            · exact Nat.lt_trans hgt (hcm e he)
      have hv : c.2 = d.2 := by
        have := h c.1 hc.1
        rwa [Memory.read_cons, if_pos rfl, Memory.read_cons, if_pos hcd.symm] at this
      have htail : m = n := by
        refine ih (Memory.wf_tail hm) (Memory.wf_tail hn) fun a ha => ?_
        by_cases hac : a = c.1
        · subst hac
          rw [Memory.read_below hcm, Memory.read_below (by rw [hcd]; exact hdn)]
        · have := h a ha
          rwa [Memory.read_cons, if_neg (Ne.symm hac), Memory.read_cons, if_neg (by rw [← hcd]; exact Ne.symm hac)] at this
      rw [htail, Prod.ext hcd hv]

/-- Nothing is listed at reset. -/
theorem reset_memory_wf : Memory.wf State.reset.EK := ⟨List.Pairwise.nil, fun c hc => absurd hc (by simp [State.reset])⟩

end Sys2Proof.Machine
end

