-- ==== Sys2Proof/Laws/Ops.lean ====
section
/-! SUPPORT. What each shared operation gives, said once: the bytes of the transforms' results, the bytes of `EK` after
the key scheduler's writes, the fields after a fault and a reset. -/

namespace Sys2Proof.Machine

open Sys2Proof

/-! ### Matrices, words, blocks -/

theorem matrix_ext {X Y : StateMatrix} (h : ∀ (r c : Nat) (hr : r < 4) (hc : c < 4), X[r][c] = Y[r][c]) : X = Y := by
  apply Vector.ext; intro r hr; apply Vector.ext; intro c hc; exact h r c hr hc

@[simp] theorem toState_get (b : Block) (r c : Nat) (hr : r < 4) (hc : c < 4) : (toState b)[r][c] = b[r + 4 * c] := by
  simp [toState]

@[simp] theorem fromState_get (T : StateMatrix) (i : Nat) (hi : i < 16) : (fromState T)[i] = T[i % 4][i / 4] := by
  simp [fromState]

@[simp] theorem subBytes_get (X : StateMatrix) (r c : Nat) (hr : r < 4) (hc : c < 4) :
    (subBytes X)[r][c] = sbox X[r][c] := by simp [subBytes]

@[simp] theorem shiftRows_get (X : StateMatrix) (r c : Nat) (hr : r < 4) (hc : c < 4) :
    (shiftRows X)[r][c] = X[r][(c + r) % 4] := by simp [shiftRows]

@[simp] theorem column_get (X : StateMatrix) (c : Fin 4) (r : Nat) (hr : r < 4) : (column X c)[r] = X[r][c.val] := by
  simp [column]

@[simp] theorem mixColumns_get (X : StateMatrix) (r c : Nat) (hr : r < 4) (hc : c < 4) :
    (mixColumns X)[r][c] = (mixcol (column X ⟨c, hc⟩))[r] := by simp [mixColumns]

@[simp] theorem roundKey_get (E : Memory) (k : Fin 11) (r c : Nat) (hr : r < 4) (hc : c < 4) :
    (roundKey E k)[r][c] = Memory.read E (16 * k.val + r + 4 * c) := by simp [roundKey]

@[simp] theorem addRoundKey_get (E : Memory) (X : StateMatrix) (k : Fin 11) (r c : Nat) (hr : r < 4) (hc : c < 4) :
    (addRoundKey E X k)[r][c] = X[r][c] ^^^ Memory.read E (16 * k.val + r + 4 * c) := by simp [addRoundKey]

@[simp] theorem readWord_get (E : Memory) (w : Fin 44) (j : Nat) (hj : j < 4) :
    (readWord E w)[j] = Memory.read E (4 * w.val + j) := by simp [readWord]

@[simp] theorem xorWord_get (x y : Word) (j : Nat) (hj : j < 4) : (xorWord x y)[j] = x[j] ^^^ y[j] := by simp [xorWord]

@[simp] theorem mixcol_zero (a : Word) : (mixcol a)[0] = xtime a[0] ^^^ mul3 a[1] ^^^ a[2] ^^^ a[3] := rfl
@[simp] theorem mixcol_one (a : Word) : (mixcol a)[1] = a[0] ^^^ xtime a[1] ^^^ mul3 a[2] ^^^ a[3] := rfl
@[simp] theorem mixcol_two (a : Word) : (mixcol a)[2] = a[0] ^^^ a[1] ^^^ xtime a[2] ^^^ mul3 a[3] := rfl
@[simp] theorem mixcol_three (a : Word) : (mixcol a)[3] = mul3 a[0] ^^^ a[1] ^^^ a[2] ^^^ xtime a[3] := rfl

/-- AddRoundKey depends on the round key's own 16 bytes of `EK` only. -/
theorem addRoundKey_congr {E F : Memory} (X : StateMatrix) (k : Fin 11)
    (h : ∀ i, i < 16 → Memory.read E (16 * k.val + i) = Memory.read F (16 * k.val + i)) :
    addRoundKey E X k = addRoundKey F X k := by
  refine matrix_ext fun r c hr hc => ?_
  have := h (r + 4 * c) (by omega)
  simp only [← Nat.add_assoc] at this
  simp [this]

/-! ### The key scheduler's writes -/

theorem read_vector_toList {n : Nat} (v : Vector Byte n) (i : Nat) (h : i < n) :
    v.toList.getD i Memory.unlisted = v[i] := by
  simp [List.getD_eq_getElem?_getD, h]

theorem read_copyKey (E : Memory) (key : Block) (a : Nat) :
    Memory.read (copyKey E key) a = if h : a < 16 then key[a] else Memory.read E a := by
  rw [copyKey, Memory.read_writeBytes]
  by_cases h : a < 16
  · rw [if_pos (by simp; omega), dif_pos h, Nat.sub_zero, read_vector_toList key a h]
  · rw [if_neg (by simp; omega), dif_neg h]

theorem read_writeWord (E : Memory) (w : Fin 44) (x : Word) (a : Nat) :
    Memory.read (writeWord E w x) a =
      if h : 4 * w.val ≤ a ∧ a < 4 * w.val + 4 then x[a - 4 * w.val] else Memory.read E a := by
  rw [writeWord, Memory.read_writeBytes]
  by_cases h : 4 * w.val ≤ a ∧ a < 4 * w.val + 4
  · rw [if_pos (by simpa using h), dif_pos h, read_vector_toList x _ (by omega)]
  · rw [if_neg (by simpa using h), dif_neg h]

theorem read_expandWord (E : Memory) (w : Nat) (hw : 4 ≤ w ∧ w ≤ 43) (a : Nat) :
    Memory.read (expandWord E w hw) a =
      if h : 4 * w ≤ a ∧ a < 4 * w + 4 then (nextWord E w hw)[a - 4 * w] else Memory.read E a :=
  read_writeWord E ⟨w, by omega⟩ _ a

/-- The new word `w` depends on the bytes below `4w` only. -/
theorem nextWord_congr {E F : Memory} (w : Nat) (hw : 4 ≤ w ∧ w ≤ 43)
    (h : ∀ a, a < 4 * w → Memory.read E a = Memory.read F a) : nextWord E w hw = nextWord F w hw := by
  have hr : ∀ v : Fin 44, v.val < w → readWord E v = readWord F v := by
    intro v hv
    apply Vector.ext; intro j hj
    simp only [readWord_get]; exact h _ (by omega)
  simp only [nextWord, hr ⟨w - 1, by omega⟩ (by simp; omega), hr ⟨w - 4, by omega⟩ (by simp; omega)]

theorem copyKey_wf {E : Memory} (h : Memory.wf E) (key : Block) : Memory.wf (copyKey E key) :=
  Memory.writeBytes_wf _ h (by simp)

theorem expandWord_wf {E : Memory} (h : Memory.wf E) (w : Nat) (hw : 4 ≤ w ∧ w ≤ 43) : Memory.wf (expandWord E w hw) :=
  Memory.writeBytes_wf _ h (by simp; omega)

theorem expandUpTo_wf {E : Memory} (h : Memory.wf E) (key : Block) (n : Nat) (hn : n ≤ 40) :
    Memory.wf (expandUpTo E key n hn) := by
  induction n with
  | zero => exact copyKey_wf h key
  | succ n ih => exact expandWord_wf (ih (by omega)) _ _

/-- Bytes above the words written so far are as they were. -/
theorem read_expandUpTo_above (E : Memory) (key : Block) (n : Nat) (hn : n ≤ 40) (a : Nat) (ha : 16 + 4 * n ≤ a) :
    Memory.read (expandUpTo E key n hn) a = Memory.read E a := by
  induction n with
  | zero => rw [expandUpTo, read_copyKey, dif_neg (by omega)]
  | succ n ih => rw [expandUpTo, read_expandWord, dif_neg (by omega), ih (by omega) (by omega)]

/-- A further word step leaves the words before it. -/
theorem read_expandUpTo_below (E : Memory) (key : Block) {n m : Nat} (hnm : n ≤ m) (hm : m ≤ 40) (a : Nat)
    (ha : a < 16 + 4 * n) :
    Memory.read (expandUpTo E key m hm) a = Memory.read (expandUpTo E key n (by omega)) a := by
  induction m with
  | zero => obtain rfl : n = 0 := by omega
            rfl
  | succ m ih =>
    by_cases h : n = m + 1
    · subst h; rfl
    · rw [expandUpTo, read_expandWord, dif_neg (by omega), ih (by omega) (by omega)]

/-! ### Faults and reset -/

theorem takeFault_eq (cause : FaultCause) (s : State) :
    takeFault cause s = { s with err := cause.code, phase := .fault, upc := 0#6 } := rfl

theorem resetCore_eq (s : State) :
    resetCore s = { s with phase := .idle, upc := 0#6, keyValid := false, doutValid := false, err := 0b00#2 } := rfl

end Sys2Proof.Machine
end

