-- ==== Sys2Proof/Laws/PerInstr.lean ====
section
/-! SUPPORT. A statement about every instruction: its encoding is one that its row of spec/opcode_table.json selects
(30_encoding.md: a word `x` selects the row when `x AND mask = match`), in the row's format. -/

namespace Sys2Proof.Laws.TableRow

open Sys2Proof

/-- The width, the mask and the match of the instruction's row, as spec/opcode_table.json gives them. -/
def row : Instr → Nat × Nat × Nat
  | .nop => (130, 0x300000000000000000000000000000000, 0x000000000000000000000000000000000)
  | .loadkey _ => (130, 0x300000000000000000000000000000000, 0x100000000000000000000000000000000)
  | .encrypt _ => (130, 0x300000000000000000000000000000000, 0x200000000000000000000000000000000)
  | .reserved0b11 => (130, 0x300000000000000000000000000000000, 0x300000000000000000000000000000000)
  | .lds => (8, 0xFF, 0x01)
  | .sub => (8, 0xFF, 0x02)
  | .shr => (8, 0xFF, 0x03)
  | .mix => (8, 0xFF, 0x04)
  | .sts => (8, 0xFF, 0x05)
  | .kcopy => (8, 0xFF, 0x06)
  | .ark _ => (8, 0xF0, 0x40)
  | .kword _ => (8, 0xC0, 0x80)

/-- The code is of width `n` and its bits, as one number, meet the mask and the match. -/
def selects (r : Nat × Nat × Nat) : Code → Prop
  | .cmd w => r.1 = 130 ∧ w &&& BitVec.ofNat 130 r.2.1 = BitVec.ofNat 130 r.2.2
  | .uop u => r.1 = 8 ∧ u &&& BitVec.ofNat 8 r.2.1 = BitVec.ofNat 8 r.2.2

def Statement (i : Instr) : Prop := i.wf = true → selects (row i) (encode i)

theorem op_mask (op : BitVec 2) (data : BitVec 128) :
    (op ++ data) &&& BitVec.ofNat 130 0x300000000000000000000000000000000 = op ++ 0#128 := by
  have : (BitVec.ofNat 130 0x300000000000000000000000000000000) = BitVec.allOnes 2 ++ 0#128 := by decide
  rw [this, BitVec.and_append, BitVec.and_allOnes, BitVec.and_zero]

theorem nop : Statement .nop := fun _ => ⟨rfl, by decide⟩
theorem loadkey (key : Block) : Statement (.loadkey key) :=
  fun _ => ⟨rfl, (op_mask 0b01#2 (packBlock key)).trans (show 0b01#2 ++ 0#128 = BitVec.ofNat 130 0x100000000000000000000000000000000 by decide)⟩
theorem encrypt (block : Block) : Statement (.encrypt block) :=
  fun _ => ⟨rfl, (op_mask 0b10#2 (packBlock block)).trans (show 0b10#2 ++ 0#128 = BitVec.ofNat 130 0x200000000000000000000000000000000 by decide)⟩
theorem reserved0b11 : Statement .reserved0b11 := fun _ => ⟨rfl, by decide⟩
theorem lds : Statement .lds := fun _ => ⟨rfl, by decide⟩
theorem sub : Statement .sub := fun _ => ⟨rfl, by decide⟩
theorem shr : Statement .shr := fun _ => ⟨rfl, by decide⟩
theorem mix : Statement .mix := fun _ => ⟨rfl, by decide⟩
theorem sts : Statement .sts := fun _ => ⟨rfl, by decide⟩
theorem kcopy : Statement .kcopy := fun _ => ⟨rfl, by decide⟩
theorem ark (k : Nat) : Statement (.ark k) := by
  intro h
  have h : k ≤ 10 := by simpa [Instr.wf] using h
  refine ⟨rfl, ?_⟩
  have hall : ∀ k : Fin 11, BitVec.ofNat 8 (0x40 + k.val) &&& BitVec.ofNat 8 0xF0 = BitVec.ofNat 8 0x40 := by decide
  exact hall ⟨k, by omega⟩
theorem kword (w : Nat) : Statement (.kword w) := by
  intro h
  have h : 4 ≤ w ∧ w ≤ 43 := by simpa [Instr.wf] using h
  refine ⟨rfl, ?_⟩
  have hall : ∀ w : Fin 44, BitVec.ofNat 8 (0x80 + w.val) &&& BitVec.ofNat 8 0xC0 = BitVec.ofNat 8 0x80 := by decide
  exact hall ⟨w, by omega⟩

end Sys2Proof.Laws.TableRow
end

