-- ==== Sys2Proof/Laws/Step.lean ====
section
/-! SUPPORT. What a step can do, said once: the cases of `stepOn`, the inversion of a micro-operation's execution, the
fetches of the two ROMs. -/

namespace Sys2Proof.Machine

open Sys2Proof

theorem step_cons (s : State) (p : PortIn) (rest : List PortIn) (h : s.inputs = p :: rest) :
    step s = stepOn p (s.withInputs rest) := by
  simp [step, samplePort, consumePort, h]

theorem step_nil (s : State) (h : s.inputs = []) : step s = stepOn PortIn.quiet s := by
  have : s.withInputs [] = s := by cases s; simp_all [State.withInputs]
  simp [step, samplePort, consumePort, h, this]

@[simp] theorem stepOn_reset (p : PortIn) (s : State) (h : p.rst = true) : stepOn p s = .next (resetCore s) := by
  simp [stepOn, h]

theorem stepOn_fault (p : PortIn) (s : State) (h : p.rst = false) (hp : s.phase = .fault) : stepOn p s = .next s := by
  simp [stepOn, h, hp]

theorem stepOn_keyexp (p : PortIn) (s : State) (h : p.rst = false) (hp : s.phase = .keyexp) :
    stepOn p s = runMicro krom advanceKeyexp s := by simp [stepOn, h, hp, stepKeyexp]

theorem stepOn_cipher (p : PortIn) (s : State) (h : p.rst = false) (hp : s.phase = .cipher) :
    stepOn p s = runMicro crom advanceCipher s := by simp [stepOn, h, hp, stepCipher]

theorem stepOn_idle_quiet (p : PortIn) (s : State) (h : p.rst = false) (hp : s.phase = .idle) (hv : p.cmdValid = false) :
    stepOn p s = .next s := by simp [stepOn, h, hp, stepIdle, hv]

theorem stepOn_idle_command (p : PortIn) (s : State) (h : p.rst = false) (hp : s.phase = .idle) (hv : p.cmdValid = true) :
    stepOn p s = exec (decodeCommand p.cmdOp p.cmdData) s := by simp [stepOn, h, hp, stepIdle, hv]

/-- The decoder gives micro-operations only. -/
theorem decodeUop_micro {u : BitVec 8} {i : Instr} (h : decodeUop u = some i) : i.isCommand = false := by
  simp only [decodeUop] at h
  repeat' split at h
  all_goals first | (cases h; rfl) | cases h

/-- A micro-operation that completes writes one of `S`, `EK`, `DOUT` and nothing else. -/
theorem exec_micro_next {i : Instr} {s t : State} (hi : i.isCommand = false) (h : exec i s = .next t) :
    (∃ X, t = s.withS X) ∨ (∃ E, t = s.withEK E) ∨ ∃ d, t = s.withDOUT d := by
  cases i <;> simp only [Instr.isCommand, Bool.true_eq_false] at hi
  case lds => cases h; exact .inl ⟨_, rfl⟩
  case sub => cases h; exact .inl ⟨_, rfl⟩
  case shr => cases h; exact .inl ⟨_, rfl⟩
  case mix => cases h; exact .inl ⟨_, rfl⟩
  case sts => cases h; exact .inr (.inr ⟨_, rfl⟩)
  case kcopy => cases h; exact .inr (.inl ⟨_, rfl⟩)
  case ark k =>
    simp only [exec, execArk] at h
    split at h <;> cases h
    exact .inl ⟨_, rfl⟩
  case kword w =>
    simp only [exec, execKword] at h
    split at h <;> cases h
    exact .inr (.inl ⟨_, rfl⟩)

theorem exec_ark (k : Nat) (s : State) (h : k < 11) : exec (.ark k) s = .next (s.withS (addRoundKey s.EK s.S ⟨k, h⟩)) := by
  simp [exec, execArk, h]

theorem exec_kword (w : Nat) (s : State) (h : 4 ≤ w ∧ w ≤ 43) : exec (.kword w) s = .next (s.withEK (expandWord s.EK w h)) := by
  simp [exec, execKword, h]

/-- A fetched word that decodes is executed, and the program counter moves after it. -/
theorem runMicro_fetched {rom : List (BitVec 8)} {after : State → State} {s : State} {u : BitVec 8} {i : Instr}
    (hu : rom[s.upc.toNat]? = some u) (hi : decodeUop u = some i) : runMicro rom after s = andThen (exec i s) after := by
  simp [runMicro, hu, hi]

/-- Everything a micro-operation step can do when it completes. -/
theorem runMicro_next {rom : List (BitVec 8)} {after : State → State} {s t : State} (h : runMicro rom after s = .next t) :
    ∃ u i r, rom[s.upc.toNat]? = some u ∧ decodeUop u = some i ∧ exec i s = .next r ∧ t = after r := by
  unfold runMicro at h
  split at h
  · cases h
  next u hu =>
    split at h
    · cases h
    next i hi =>
      cases he : exec i s <;> rw [he] at h <;> simp only [andThen] at h <;> cases h
      exact ⟨u, i, _, hu, hi, he, rfl⟩

/-- The words of `KROM`: `KCOPY` first, then `KWORD (n+3)` at index n. -/
theorem krom_fetch (n : Nat) (h : n ≤ 40) :
    ∃ u, krom[n]? = some u ∧ decodeUop u = some (if n = 0 then .kcopy else .kword (n + 3)) := by
  have hall : ∀ n : Fin 41, (krom[n.val]?).bind decodeUop = some (if n.val = 0 then .kcopy else .kword (n.val + 3)) := by decide
  exact Option.bind_eq_some_iff.mp (hall ⟨n, by omega⟩)

/-- The micro-operation at index n of `CROM`. -/
def cromInstr (n : Nat) : Instr :=
  if n = 0 then .lds else if n = 1 then .ark 0 else if n = 41 then .sts
  else if n % 4 = 2 then .sub else if n % 4 = 3 then .shr else if n = 40 then .ark 10
  else if n % 4 = 0 then .mix else .ark (n / 4)

theorem crom_fetch (n : Nat) (h : n ≤ 41) : ∃ u, crom[n]? = some u ∧ decodeUop u = some (cromInstr n) := by
  have hall : ∀ n : Fin 42, (crom[n.val]?).bind decodeUop = some (cromInstr n.val) := by decide
  exact Option.bind_eq_some_iff.mp (hall ⟨n, by omega⟩)

/-- Nothing lies beyond the ROMs. -/
theorem rom_end : krom[41]? = none ∧ crom[42]? = none := by decide

/-! ### What a step can do, said once -/

@[simp] theorem consumePort_fields (s : State) : (consumePort s).S = s.S ∧ (consumePort s).EK = s.EK ∧
    (consumePort s).IBUF = s.IBUF ∧ (consumePort s).DOUT = s.DOUT ∧ (consumePort s).phase = s.phase ∧
    (consumePort s).upc = s.upc ∧ (consumePort s).keyValid = s.keyValid ∧ (consumePort s).doutValid = s.doutValid ∧
    (consumePort s).err = s.err ∧ (consumePort s).inputs = s.inputs.tail :=
  ⟨rfl, rfl, rfl, rfl, rfl, rfl, rfl, rfl, rfl, rfl⟩

/-- A literal index as the value of `upc`. -/
theorem upc_eq_iff {x : BitVec 6} {n : Nat} (hn : n < 64) : x = BitVec.ofNat 6 n ↔ x.toNat = n := by
  constructor
  · rintro rfl; simp; omega
  · intro h; apply BitVec.eq_of_toNat_eq; simp; omega

/-- The two fields of a command's number are the fields its decoding takes out. -/
theorem decode_command_append (op : BitVec 2) (data : BitVec 128) :
    decode (.cmd (op ++ data)) = some (decodeCommand op data) := by
  have h1 : @BitVec.extractLsb' (2+128) 128 2 (op ++ data) = op := by
    apply BitVec.eq_of_getLsbD_eq; intro k hk
    rw [BitVec.getLsbD_extractLsb', BitVec.getLsbD_append]; simp [hk]
  have h2 : @BitVec.extractLsb' (2+128) 0 128 (op ++ data) = data := by
    apply BitVec.eq_of_getLsbD_eq; intro k hk
    rw [BitVec.getLsbD_extractLsb', BitVec.getLsbD_append]; simp [hk]
  exact congrArg some (congrArg₂ decodeCommand h1 h2)

/-- What the acceptance of a command answers, by its opcode. -/
theorem exec_decodeCommand (op : BitVec 2) (d : BitVec 128) (s : State) :
   exec (decodeCommand op d) s = .next (
     if op = 0b00#2 then s
     else if op = 0b01#2 then (startKey (loadOperand (unpackBlock d) s)).withPc .keyexp 0#6
     else if op = 0b10#2 then
       if s.keyValid = false then takeFault .noKey s else (startDout (loadOperand (unpackBlock d) s)).withPc .cipher 0#6
     else takeFault .illegalCommand s) := by
  unfold decodeCommand
  split
  · rfl
  split
  · rfl
  split
  · simp only [exec, execEncrypt]; split <;> rfl
  · rfl

/-- Everything the acceptance of a command can do. -/
theorem exec_decodeCommand_next {op : BitVec 2} {d : BitVec 128} {s t : State} (h : exec (decodeCommand op d) s = .next t) :
   (op = 0b00#2 ∧ t = s) ∨ (op = 0b01#2 ∧ t = { s with IBUF := unpackBlock d, keyValid := false, phase := .keyexp, upc := 0#6 }) ∨
   (op = 0b10#2 ∧ s.keyValid = true ∧ t = { s with IBUF := unpackBlock d, doutValid := false, phase := .cipher, upc := 0#6 }) ∨
   (op = 0b10#2 ∧ s.keyValid = false ∧ t = { s with err := 0b01#2, phase := .fault, upc := 0#6 }) ∨
   (op = 0b11#2 ∧ t = { s with err := 0b10#2, phase := .fault, upc := 0#6 }) := by
  have h4 : ∀ op : BitVec 2, op = 0b00#2 ∨ op = 0b01#2 ∨ op = 0b10#2 ∨ op = 0b11#2 := by decide
  rw [exec_decodeCommand] at h
  injection h with h
  subst h
  rcases h4 op with rfl | rfl | rfl | rfl
  · exact .inl ⟨rfl, rfl⟩
  · exact .inr (.inl ⟨rfl, rfl⟩)
  · rw [if_neg (by decide), if_neg (by decide), if_pos rfl]
    by_cases hk : s.keyValid = false
    · rw [if_pos hk]; exact .inr (.inr (.inr (.inl ⟨rfl, hk, rfl⟩)))
    · rw [if_neg hk]
      exact .inr (.inr (.inl ⟨rfl, by simpa using hk,
        by simp only [startDout, loadOperand, State.withPc, State.withIBUF, State.withDoutValid]⟩))
  · exact .inr (.inr (.inr (.inr ⟨rfl, rfl⟩)))

/-- What a completing micro-operation leaves alone. -/
theorem exec_micro_frame {i : Instr} {s t : State} (hi : i.isCommand = false) (h : exec i s = .next t) :
    t.phase = s.phase ∧ t.upc = s.upc ∧ t.keyValid = s.keyValid ∧ t.doutValid = s.doutValid ∧ t.err = s.err ∧
    t.inputs = s.inputs ∧ t.IBUF = s.IBUF := by
  rcases exec_micro_next hi h with ⟨x, rfl⟩ | ⟨x, rfl⟩ | ⟨x, rfl⟩ <;> simp

/-- The instruction at index n of `CROM` writes `S`, and only the last one `DOUT`. -/
theorem exec_cromInstr (n : Nat) (hn : n ≤ 41) :
    (n = 41 → ∀ s, exec (cromInstr n) s = .next (s.withDOUT (fromState s.S))) ∧
    (n ≠ 41 → ∀ s, ∃ X, exec (cromInstr n) s = .next (s.withS X)) := by
  refine ⟨fun h s => by subst h; rfl, fun h s => ?_⟩
  unfold cromInstr
  repeat' split
  all_goals first
    | exact ⟨_, rfl⟩
    | exact absurd (by assumption) h
    | exact ⟨_, exec_ark _ s (by omega)⟩

/-- Everything a step that completes can do. -/
theorem step_next {s t : State} (h : step s = .next t) :
    ((samplePort s).rst = true ∧ t = resetCore (consumePort s)) ∨
    ((samplePort s).rst = false ∧
     ((s.phase = .fault ∧ t = consumePort s) ∨
      (s.phase = .idle ∧ (samplePort s).cmdValid = false ∧ t = consumePort s) ∨
      (s.phase = .idle ∧ (samplePort s).cmdValid = true ∧
        exec (decodeCommand (samplePort s).cmdOp (samplePort s).cmdData) (consumePort s) = .next t) ∨
      (s.phase = .keyexp ∧ s.upc.toNat ≤ 40 ∧ ∃ E, t = advanceKeyexp ((consumePort s).withEK E) ∧
        exec (if s.upc.toNat = 0 then .kcopy else .kword (s.upc.toNat + 3)) (consumePort s) =
          .next ((consumePort s).withEK E)) ∨
      (s.phase = .cipher ∧ s.upc.toNat ≤ 41 ∧ ∃ r, t = advanceCipher r ∧
        exec (cromInstr s.upc.toNat) (consumePort s) = .next r ∧
        ((∃ X, r = (consumePort s).withS X ∧ s.upc ≠ 41#6) ∨
         (s.upc = 41#6 ∧ r = (consumePort s).withDOUT (fromState s.S)))))) := by
  cases hr : (samplePort s).rst
  case true =>
    rw [step, stepOn_reset (samplePort s) (consumePort s) hr] at h; cases h; exact .inl ⟨rfl, rfl⟩
  refine .inr ⟨rfl, ?_⟩
  rw [step] at h
  cases hp : s.phase
  case fault => rw [stepOn_fault (samplePort s) (consumePort s) hr hp] at h; cases h; exact .inl ⟨rfl, rfl⟩
  case idle =>
    cases hv : (samplePort s).cmdValid
    · rw [stepOn_idle_quiet (samplePort s) (consumePort s) hr hp hv] at h; cases h; exact .inr (.inl ⟨rfl, rfl, rfl⟩)
    · rw [stepOn_idle_command (samplePort s) (consumePort s) hr hp hv] at h; exact .inr (.inr (.inl ⟨rfl, rfl, h⟩))
  case keyexp =>
    rw [stepOn_keyexp (samplePort s) (consumePort s) hr hp] at h
    have hlt : s.upc.toNat ≤ 40 := by
      by_contra hc
      obtain ⟨u, i, r, hu, -⟩ := runMicro_next h
      have := List.getElem?_eq_some_iff.mp hu
      have h41 : krom.length = 41 := by decide
      obtain ⟨hl, -⟩ := this
      simp [consumePort] at hl; omega
    obtain ⟨u, hu, hd⟩ := krom_fetch s.upc.toNat hlt
    rw [runMicro_fetched (s := consumePort s) hu hd] at h
    refine .inr (.inr (.inr (.inl ⟨rfl, hlt, ?_⟩)))
    by_cases h0 : s.upc.toNat = 0
    · rw [if_pos h0] at h ⊢
      refine ⟨_, ?_, rfl⟩
      simp only [exec, execKcopy, andThen] at h; cases h; rfl
    · rw [if_neg h0] at h ⊢
      have e := exec_kword (s.upc.toNat + 3) (consumePort s) (by omega)
      rw [e] at h ⊢
      refine ⟨_, ?_, rfl⟩
      simp only [andThen] at h; cases h; rfl
  case cipher =>
    rw [stepOn_cipher (samplePort s) (consumePort s) hr hp] at h
    have hlt : s.upc.toNat ≤ 41 := by
      by_contra hc
      obtain ⟨u, i, r, hu, -⟩ := runMicro_next h
      have := List.getElem?_eq_some_iff.mp hu
      have h41 : crom.length = 42 := by decide
      obtain ⟨hl, -⟩ := this
      simp [consumePort] at hl; omega
    obtain ⟨u, hu, hd⟩ := crom_fetch s.upc.toNat hlt
    rw [runMicro_fetched (s := consumePort s) hu hd] at h
    refine .inr (.inr (.inr (.inr ⟨rfl, hlt, ?_⟩)))
    by_cases h41 : s.upc.toNat = 41
    · have := (exec_cromInstr _ hlt).1 h41 (consumePort s)
      rw [this] at h; simp only [andThen] at h; cases h
      exact ⟨_, rfl, this, .inr ⟨by apply BitVec.eq_of_toNat_eq; exact h41, rfl⟩⟩
    · obtain ⟨X, this⟩ := (exec_cromInstr _ hlt).2 h41 (consumePort s)
      rw [this] at h; simp only [andThen] at h; cases h
      exact ⟨_, rfl, this, .inl ⟨X, rfl, fun hh => h41 (by rw [hh]; rfl)⟩⟩

/-! ### Runs -/

@[simp] theorem runSteps_zero (s : State) : runSteps 0 s = .next s := rfl

theorem runSteps_succ {s t : State} (n : Nat) (h : step s = .next t) : runSteps (n + 1) s = runSteps n t := by
  simp only [runSteps, h]

theorem runSteps_add {n : Nat} {s t : State} (m : Nat) (h : runSteps n s = .next t) : runSteps (n + m) s = runSteps m t := by
  induction n generalizing s with
  | zero => simp only [runSteps_zero, Host.Outcome.next.injEq] at h; rw [Nat.zero_add, h]
  | succ n ih =>
    rw [Nat.succ_add_eq_add_succ, Nat.add_succ]
    cases hs : step s with
    | next r => rw [runSteps_succ n hs] at h; rw [runSteps_succ (n + m) hs, ih h]
    | fault e => simp only [runSteps, hs] at h; cases h
    | refused e => simp only [runSteps, hs] at h; cases h

theorem core_run_next {M : Host.Core} {s t : M.State} (n : Nat) (h : M.step s = .next t) : M.run (n + 1) s = M.run n t := by
  rw [Host.Core.run, h]

theorem core_run_fault {M : Host.Core} {s : M.State} {e : M.Fault} (n : Nat) (h : M.step s = .fault e) :
    M.run (n + 1) s = .fault e := by rw [Host.Core.run, h]

theorem core_run_refused {M : Host.Core} {s : M.State} {e : M.Refusal} (n : Nat) (h : M.step s = .refused e) :
    M.run (n + 1) s = .refused e := by rw [Host.Core.run, h]

/-- `runSteps` is the host interface's run of this core. -/
theorem core_run_eq (n : Nat) (s : State) : Host.Core.run Sys2Proof.core n s = runSteps n s := by
  induction n generalizing s with
  | zero => rfl
  | succ n ih =>
    cases h : step s with
    | next t => exact (core_run_next (M := Sys2Proof.core) n h).trans ((ih t).trans (runSteps_succ n h).symm)
    | fault e => exact (core_run_fault (M := Sys2Proof.core) n h).trans (by simp only [runSteps, h]; rfl)
    | refused e => exact (core_run_refused (M := Sys2Proof.core) n h).trans (by simp only [runSteps, h]; rfl)

/-! ### Host scripts -/

/-- The opening reset of a run, in any phase. -/
theorem runScript_eq (n : Nat) (s : State) (script : List Stmt) :
    runScript n s script = runSession n (Session.start (resetCore s) script) := by
  simp only [runScript, stepOn_reset Stmt.reset.offer s rfl]

/-- A second reset step changes nothing more (70_reset_and_hazards.md R242). -/
@[simp] theorem resetCore_resetCore (s : State) : resetCore (resetCore s) = resetCore s := rfl

/-- A script's own leading `RESET` is one more step of the run's opening reset: it is performed on every core, one in
`FAULT` among them. -/
theorem runScript_reset_cons (n : Nat) (s : State) (script : List Stmt) :
    runScript (n + 1) s (.reset :: script) = runScript n s script := by
  have hrun : runStatus (Session.start (resetCore s) (.reset :: script)) = .running := by
    simp [runStatus, Session.start, resetCore_eq]
  have hstep : sessionStep (Session.start (resetCore s) (.reset :: script)) = .next (Session.start (resetCore s) script) := by
    simp [sessionStep, collect, Session.start, stepOn_reset Stmt.reset.offer _ rfl, Stmt.taken, awaits]
  simp only [runScript_eq, runSession, hrun, hstep]

end Sys2Proof.Machine
end

