-- ==== Sys2Proof/Tests/Slice0.lean ====
section
/-! SUPPORT. The model's own tests. Expected values come from spec/95_test_vectors.md (V<n>) and the encoding tables
(30_encoding.md R82, R85, R89); each test runs at most one step. The last part holds a witness for every statement that
has hypotheses: a concrete state and operands that meet all of them together. -/

namespace Sys2Proof.Tests

open Sys2Proof Sys2Proof.Machine

set_option maxRecDepth 20000

/-! ### Helpers -/

/-- The state an outcome goes on in. -/
def goesOn : Result → Option State
  | .next t => some t
  | .fault _ => none
  | .refused _ => none

/-- One element of the state an outcome goes on in. -/
def after {α : Type} (r : Result) (f : State → α) : Option α := (goesOn r).map f

/-- The state matrix whose block bytes are those of a hexadecimal number, byte 0 the highest (R53, R140). -/
def mat (x : BitVec 128) : StateMatrix := toState (unpackBlock x)

/-- A core at a place of the micro-programs. -/
def coreAt (p : Phase) (u : BitVec 6) : State := { State.reset with phase := p, upc := u, keyValid := decide (p = .cipher) }

/-- A core that the host offers one command. -/
def offered (s : State) (op : BitVec 2) (data : BitVec 128) : State :=
  { s with inputs := [{ rst := false, cmdValid := true, cmdOp := op, cmdData := data }] }

/-- A core that is reset in the coming step. -/
def resetting (s : State) : State := { s with inputs := [{ rst := true, cmdValid := true, cmdOp := 0b01#2, cmdData := 7#128 }] }

/-- Round-key blocks 0 and 1 of the key 000102..0f (V13), as cells. -/
def ek13 : Memory :=
  (Memory.writeBytes [] 0 [0x00, 0x01, 0x02, 0x03, 0x04, 0x05, 0x06, 0x07, 0x08, 0x09, 0x0a, 0x0b, 0x0c, 0x0d, 0x0e, 0x0f]).writeBytes
    16 [0xd6, 0xaa, 0x74, 0xfd, 0xd2, 0xaf, 0x72, 0xfa, 0xda, 0xa6, 0x78, 0xf1, 0xd6, 0xab, 0x76, 0xfe]

/-- The bytes of the key of V12, as cells. -/
def key12 : Memory :=
  Memory.writeBytes [] 0 [0x2b, 0x7e, 0x15, 0x16, 0x28, 0xae, 0xd2, 0xa6, 0xab, 0xf7, 0x15, 0x88, 0x09, 0xcf, 0x4f, 0x3c]

/-! ### WellFormed: each check refuses an ill-formed term -/

theorem test_wf_ark : Instr.wf (.ark 11) = false ∧ Instr.wf (.ark 10) = true := by decide

theorem test_wf_kword :
    Instr.wf (.kword 3) = false ∧ Instr.wf (.kword 44) = false ∧ Instr.wf (.kword 4) = true ∧ Instr.wf (.kword 43) = true := by
  decide

/-! ### Decode: words written out from the encoding tables (R82, R85), and V24 -/

theorem test_decode_nop : decode (.cmd 0x0123456789abcdef0123456789abcdef#130) = some .nop := by decide

theorem test_decode_loadkey : decode (.cmd 0x12b7e151628aed2a6abf7158809cf4f3c#130) =
    some (.loadkey #v[0x2b, 0x7e, 0x15, 0x16, 0x28, 0xae, 0xd2, 0xa6, 0xab, 0xf7, 0x15, 0x88, 0x09, 0xcf, 0x4f, 0x3c]) := by
  decide

theorem test_decode_encrypt : decode (.cmd 0x23243f6a8885a308d313198a2e0370734#130) =
    some (.encrypt #v[0x32, 0x43, 0xf6, 0xa8, 0x88, 0x5a, 0x30, 0x8d, 0x31, 0x31, 0x98, 0xa2, 0xe0, 0x37, 0x07, 0x34]) := by
  decide

theorem test_decode_reserved0b11 : decode (.cmd 0x3ffffffffffffffffffffffffffffffff#130) = some .reserved0b11 := by decide

theorem test_decode_lds : decode (.uop 0b00000001#8) = some .lds := by decide
theorem test_decode_sub : decode (.uop 0b00000010#8) = some .sub := by decide
theorem test_decode_shr : decode (.uop 0b00000011#8) = some .shr := by decide
theorem test_decode_mix : decode (.uop 0b00000100#8) = some .mix := by decide
theorem test_decode_sts : decode (.uop 0b00000101#8) = some .sts := by decide
theorem test_decode_kcopy : decode (.uop 0b00000110#8) = some .kcopy := by decide

theorem test_decode_ark : decode (.uop 0b01000000#8) = some (.ark 0) ∧ decode (.uop 0b01001010#8) = some (.ark 10) := by decide

theorem test_decode_kword : decode (.uop 0b10000100#8) = some (.kword 4) ∧ decode (.uop 0b10001000#8) = some (.kword 8) ∧
    decode (.uop 0b10101011#8) = some (.kword 43) := by decide

/-- V24: the reserved words it lists. -/
theorem test_decode_reserved_words :
    ∀ u ∈ [0x00#8, 0x07#8, 0x3F#8, 0x4B#8, 0x50#8, 0x7F#8, 0x80#8, 0x83#8, 0xAC#8, 0xBF#8, 0xC0#8, 0xFF#8],
      decode (.uop u) = none := by decide

/-- R82, R85: the encoder writes the words of the tables. -/
theorem test_encode : encode (.kword 43) = .uop 0xAB#8 ∧ encode (.ark 10) = .uop 0x4A#8 ∧
    encode (.loadkey #v[0, 1, 2, 3, 4, 5, 6, 7, 8, 9, 10, 11, 12, 13, 14, 15]) = .cmd 0x1000102030405060708090a0b0c0d0e0f#130 := by
  decide

/-- The rows of spec/opcode_table.json in whole bytes (8 and 136 bits), bit 0 the least significant. -/
theorem test_decodeTableWord : decodeTableWord 8 0x04 = some .mix ∧ decodeTableWord 8 0x80 = none ∧
    decodeTableWord 136 0x300000000000000000000000000000000 = some .reserved0b11 := by decide

/-! ### One step on each instruction -/

/-- V26: NOP after reset changes nothing. -/
theorem test_nop : goesOn (step (offered State.reset 0b00#2 5#128)) = some State.reset := by decide

/-- V25 step 2, R193. -/
theorem test_loadkey : after (step (offered State.reset 0b01#2 0x000102030405060708090a0b0c0d0e0f#128))
    (fun t => (t.phase, t.upc, t.keyValid, t.IBUF)) =
      some (.keyexp, 0#6, false, #v[0, 1, 2, 3, 4, 5, 6, 7, 8, 9, 10, 11, 12, 13, 14, 15]) := by decide

/-- V25 step 44, R194. -/
theorem test_encrypt : after (step (offered { State.reset with keyValid := true, doutValid := true } 0b10#2 0x0102#128))
    (fun t => (t.phase, t.upc, t.doutValid, t.IBUF)) =
      some (.cipher, 0#6, false, #v[0, 0, 0, 0, 0, 0, 0, 0, 0, 0, 0, 0, 0, 0, 1, 2]) := by decide

/-- V26: ENCRYPT without a key, `IBUF` not written. -/
theorem test_encrypt_nokey : goesOn (step (offered State.reset 0b10#2 9#128)) =
    some { State.reset with phase := .fault, err := 0b01#2 } := by decide

/-- V26: `.cmd 3` with a key and a valid `DOUT`. -/
theorem test_reserved0b11 :
    after (step (offered { State.reset with keyValid := true, doutValid := true, DOUT := Vector.replicate 16 0xd5#8 } 0b11#2 0#128))
      (fun t => (t.phase, t.err, t.keyValid, t.doutValid, t.DOUT)) =
        some (.fault, 0b10#2, true, true, Vector.replicate 16 0xd5#8) := by decide

/-- V15: byte 1 of the block is at row 1, column 0. -/
theorem test_lds :
    after (exec .lds { State.reset with IBUF := #v[0, 1, 2, 3, 4, 5, 6, 7, 8, 9, 10, 11, 12, 13, 14, 15] }) (fun t => t.S) =
      some #v[#v[0x00, 0x04, 0x08, 0x0c], #v[0x01, 0x05, 0x09, 0x0d], #v[0x02, 0x06, 0x0a, 0x0e], #v[0x03, 0x07, 0x0b, 0x0f]] := by
  decide

/-- V15, the other way. -/
theorem test_sts : after (exec .sts { State.reset with
      S := #v[#v[0x00, 0x04, 0x08, 0x0c], #v[0x01, 0x05, 0x09, 0x0d], #v[0x02, 0x06, 0x0a, 0x0e], #v[0x03, 0x07, 0x0b, 0x0f]] })
    (fun t => (t.DOUT, t.doutValid)) = some (#v[0, 1, 2, 3, 4, 5, 6, 7, 8, 9, 10, 11, 12, 13, 14, 15], false) := by decide

/-- V16, third row. -/
theorem test_sub : after (exec .sub { State.reset with S := mat 0x193de3bea0f4e22b9ac68d2ae9f84808#128 }) (fun t => t.S) =
    some (mat 0xd42711aee0bf98f1b8b45de51e415230#128) := by decide

/-- V17, first row. -/
theorem test_shr : after (exec .shr { State.reset with S := mat 0x000102030405060708090a0b0c0d0e0f#128 }) (fun t => t.S) =
    some (mat 0x00050a0f04090e03080d02070c01060b#128) := by decide

/-- V19, second row. -/
theorem test_mix : after (exec .mix { State.reset with S := mat 0xd4bf5d30e0b452aeb84111f11e2798e5#128 }) (fun t => t.S) =
    some (mat 0x046681e5e0cb199a48f8d37a2806264c#128) := by decide

/-- V18: a unit column and a column with reduction. -/
theorem test_mixcol : mixcol #v[0x01, 0x00, 0x00, 0x00] = #v[0x02, 0x01, 0x01, 0x03] ∧
    mixcol #v[0x80, 0x00, 0x00, 0x00] = #v[0x1b, 0x80, 0x80, 0x9b] := by decide

/-- V20: ARK 1 with the round keys of V13. -/
theorem test_ark : after (exec (.ark 1) { State.reset with EK := ek13, S := mat 0x000102030405060708090a0b0c0d0e0f#128 }) (fun t => t.S) =
    some (mat 0xd6ab76fed6aa74fdd2af72fadaa678f1#128) := by decide

/-- R121: the key's bytes become the bytes 0 to 15 of `EK`. -/
theorem test_kcopy :
    after (exec .kcopy { State.reset with IBUF := #v[0, 1, 2, 3, 4, 5, 6, 7, 8, 9, 10, 11, 12, 13, 14, 15] })
      (fun t => (Memory.read t.EK 1, Memory.read t.EK 15, Memory.read t.EK 16)) = some (1#8, 15#8, 0#8) := by decide

/-- V10, last row, and the sum below it: W[4] = a0 fa fe 17. -/
theorem test_kword_core :
    after (exec (.kword 4) { State.reset with EK := key12 }) (fun t => readWord t.EK 4) = some #v[0xa0, 0xfa, 0xfe, 0x17] := by decide

/-- V10, zero key, w = 5: no transform. -/
theorem test_kword_plain :
    after (exec (.kword 5) { State.reset with EK := Memory.writeBytes [] 16 [0x62, 0x63, 0x63, 0x63] })
      (fun t => readWord t.EK 5) = some #v[0x62, 0x63, 0x63, 0x63] := by decide

/-! ### The sequencer -/

/-- V25 step 43: the last step of the expansion sets `key_valid`. -/
theorem test_keyexp_end : after (step (coreAt .keyexp 40#6)) (fun t => (t.phase, t.upc, t.keyValid)) =
    some (.idle, 0#6, true) := by decide

/-- V25 step 86: the last step of the cipher sets `dout_valid`. -/
theorem test_cipher_end : after (step (coreAt .cipher 41#6)) (fun t => (t.phase, t.upc, t.doutValid)) =
    some (.idle, 0#6, true) := by decide

/-- V26: a command offered while the core is busy is ignored. -/
theorem test_busy_ignores : goesOn (step (offered (coreAt .cipher 2#6) 0b11#2 0#128)) = goesOn (step (coreAt .cipher 2#6)) := by decide

/-- V26: in `FAULT` a command changes nothing, and reset returns (V27: reset wins over the command beside it). -/
theorem test_fault_and_reset :
    goesOn (step (offered { State.reset with phase := .fault, err := 0b01#2, keyValid := true } 0b01#2 0#128)) =
      some { State.reset with phase := .fault, err := 0b01#2, keyValid := true } ∧
    goesOn (step (resetting { State.reset with phase := .fault, err := 0b10#2, keyValid := true, doutValid := true })) =
      some State.reset := by decide

/-- R201, R217: a run opens with a reset, so on a core in `FAULT` a script, its own leading RESET too, is performed. -/
theorem test_run_resets_a_faulted_core :
    (match runScript 2 { State.reset with phase := .fault, err := 0b01#2 } [.reset, .nop] with
      | .next x => some (runStatus x, x.core, x.pending)
      | .fault _ => none
      | .refused _ => none) = some (.completed, State.reset, []) := by decide

/-- P3: the statements after a fault, a RESET among them, are not taken in the same run. -/
theorem test_run_ends_at_the_fault :
    (match runScript 3 State.reset [.encrypt State.reset.IBUF, .loadkey State.reset.IBUF, .reset] with
      | .next x => some (runStatus x, x.core.err, x.pending.length)
      | .fault _ => none
      | .refused _ => none) = some (.faulted, 0b01#2, 2) := by decide

/-- The host's interface: a command row and a micro-operation row run as the first instruction after reset. -/
theorem test_withFetchWord :
    goesOn (step (State.reset.withFetchWord 136 0x300000000000000000000000000000000)) =
      some { State.reset with phase := .fault, err := 0b10#2 } ∧
    after (step (State.reset.withFetchWord 8 0x02)) (fun t => t.S) = some (mat 0x63636363636363636363636363636363#128) := by decide

/-! ### Witnesses: a concrete state and operands for the hypotheses of every statement that has some -/

theorem witness_DecodeInvertsEncode : Instr.wf (.kword 4) = true ∧ Instr.wf (.kword 43) = true ∧ Instr.wf (.ark 0) = true ∧
    Instr.wf (.ark 10) = true ∧ Instr.wf (.loadkey (Vector.replicate 16 0xff)) = true := by decide

theorem witness_EncodeInvertsMicroDecode : decode (.uop 0x4A#8) = some (.ark 10) ∧ decode (.uop 0x84#8) = some (.kword 4) := by
  decide

theorem witness_ReservedWordsRefused : (0xAB#8 ∈ krom ∧ 0x05#8 ∈ crom) ∧
    ([0xAC#8][(coreAt .keyexp 0#6).upc.toNat]? = some 0xAC#8 ∧ decodeUop 0xAC#8 = none) := by decide

/-- Both ends of both ranges of the statement. -/
theorem witness_RomsHoldThePseudoPrograms : (1 ≤ (1 : Fin 41).val ∧ 1 ≤ (40 : Fin 41).val) ∧
    (1 ≤ (1 : Fin 10).val ∧ 1 ≤ (9 : Fin 10).val) := by decide

/-- R170: the driver's states at both ends of each range. -/
theorem witness_DriverStatesAreUpcRanges : driverState 2 = some (.round 1) ∧ driverState 5 = some (.round 1) ∧
    driverState 34 = some (.round 9) ∧ driverState 37 = some (.round 9) ∧ driverState 38 = some .finalRound ∧
    driverState 40 = some .finalRound ∧ driverState 42 = none := by decide

theorem witness_AssemblerTextRoundTrip : Instr.wf (.kword 43) = true ∧ Instr.isCommand (.kword 43) = false := by decide

/-- A command that is accepted. -/
theorem witness_StepRunsOfferedCommand :
    (offered State.reset 0b11#2 1#128).inputs = [{ rst := false, cmdValid := true, cmdOp := 0b11#2, cmdData := 1#128 }] ∧
    (offered State.reset 0b11#2 1#128).phase = .idle ∧ decode (.cmd (0b11#2 ++ 1#128)) = some .reserved0b11 := by decide

/-- Both phases, at the first and the last index of their ROM. -/
theorem witness_StepRunsFetchedMicroOperation :
    ((samplePort (coreAt .keyexp 0#6)).rst = false ∧ krom[(coreAt .keyexp 0#6).upc.toNat]? = some 0x06#8 ∧
      decode (.uop 0x06#8) = some .kcopy ∧ (after (exec .kcopy (coreAt .keyexp 0#6)) (fun t => t.upc)) = some 0#6) ∧
    (krom[(coreAt .keyexp 40#6).upc.toNat]? = some 0xAB#8 ∧ decode (.uop 0xAB#8) = some (.kword 43) ∧
      (after (exec (.kword 43) (coreAt .keyexp 40#6)) (fun t => t.upc)) = some 40#6) ∧
    (crom[(coreAt .cipher 0#6).upc.toNat]? = some 0x01#8 ∧ decode (.uop 0x01#8) = some .lds ∧
      (after (exec .lds (coreAt .cipher 0#6)) (fun t => t.upc)) = some 0#6) ∧
    (crom[(coreAt .cipher 41#6).upc.toNat]? = some 0x05#8 ∧ decode (.uop 0x05#8) = some .sts ∧
      (after (exec .sts (coreAt .cipher 41#6)) (fun t => t.upc)) = some 41#6) := by decide

theorem witness_ResetStep : (samplePort (resetting (coreAt .cipher 7#6))).rst = true := by decide

theorem witness_HeldResetIsOneReset :
    let s : State := { coreAt .cipher 7#6 with inputs := List.replicate 3 { PortIn.quiet with rst := true } }
    1 ≤ 3 ∧ 3 ≤ s.inputs.length ∧ ∀ p ∈ s.inputs.take 3, p.rst = true := by decide

theorem witness_FaultPhaseHolds :
    (offered (coreAt .fault 0#6) 0b01#2 1#128).phase = .fault ∧ noReset 5 (offered (coreAt .fault 0#6) 0b01#2 1#128) := by
  refine ⟨by decide, ?_⟩
  intro p hp
  simp only [offered, List.take_succ_cons, List.take_nil, List.mem_singleton] at hp
  subst hp; rfl

/-- Either side of the statement's alternative. -/
theorem witness_CommandPortIgnoredUnlessAccepted :
    ((coreAt .keyexp 3#6).phase ≠ .idle ∧ (coreAt .fault 0#6).phase ≠ .idle) ∧
    (PortIn.quiet.rst = false ∧ PortIn.quiet.cmdValid = false) := by decide

/-- The control invariant in every phase, at the ends of the ROMs. -/
theorem witness_ControlInv : ControlInv State.reset ∧ ControlInv (coreAt .keyexp 39#6) ∧ ControlInv (coreAt .keyexp 40#6) ∧
    ControlInv (coreAt .cipher 40#6) ∧ ControlInv (coreAt .cipher 41#6) ∧
    ControlInv { coreAt .fault 0#6 with err := 0b10#2 } := by
  refine ⟨?_, ?_, ?_, ?_, ?_, ?_⟩ <;> constructor <;> decide

theorem witness_StepAlwaysCompletes : ControlInv (coreAt .cipher 41#6) := witness_ControlInv.2.2.2.2.1

/-- Every clause of the statement: each state below is in the invariant and steps, with the phase and `upc` shown after. -/
theorem witness_ProgramCounterMoves :
    after (step (resetting (coreAt .cipher 7#6))) (fun t => (t.phase, t.upc)) = some (.idle, 0#6) ∧
    after (step (coreAt .keyexp 39#6)) (fun t => (t.phase, t.upc)) = some (.keyexp, 40#6) ∧
    after (step (coreAt .keyexp 40#6)) (fun t => (t.phase, t.upc)) = some (.idle, 0#6) ∧
    after (step (coreAt .cipher 40#6)) (fun t => (t.phase, t.upc)) = some (.cipher, 41#6) ∧
    after (step (coreAt .cipher 41#6)) (fun t => (t.phase, t.upc)) = some (.idle, 0#6) ∧
    after (step { coreAt .fault 0#6 with err := 0b10#2 }) (fun t => (t.phase, t.upc)) = some (.fault, 0#6) ∧
    after (step (offered State.reset 0b01#2 0#128)) (fun t => (t.phase, t.upc)) = some (.keyexp, 0#6) := by decide

/-- Every clause: `S` at CROM[2], `EK` at KROM[0], `IBUF` by both commands, `DOUT` at CROM[41]. -/
theorem witness_DataElementsChangeOnlyByTheirWriters :
    after (step (coreAt .cipher 2#6)) (fun t => decide (t.S = (coreAt .cipher 2#6).S)) = some false ∧
    after (step { coreAt .keyexp 0#6 with IBUF := Vector.replicate 16 1 }) (fun t => decide (t.EK = [])) = some false ∧
    after (step (offered State.reset 0b01#2 1#128)) (fun t => decide (t.IBUF = State.reset.IBUF)) = some false ∧
    after (step (offered (coreAt .idle 0#6) 0b01#2 1#128)) (fun t => decide (t.IBUF = State.reset.IBUF)) = some false ∧
    after (step { coreAt .cipher 41#6 with S := mat 1#128 }) (fun t => decide (t.DOUT = State.reset.DOUT)) = some false := by
  decide

/-- Every clause: both directions of both flags, and both writers of `err`. -/
theorem witness_FlagsChangeOnlyByTheirWriters :
    after (step (coreAt .keyexp 40#6)) (fun t => t.keyValid) = some true ∧
    after (step (offered { State.reset with keyValid := true } 0b01#2 0#128)) (fun t => t.keyValid) = some false ∧
    after (step (resetting (coreAt .cipher 3#6))) (fun t => t.keyValid) = some false ∧
    after (step (coreAt .cipher 41#6)) (fun t => t.doutValid) = some true ∧
    after (step (offered { State.reset with keyValid := true, doutValid := true } 0b10#2 0#128)) (fun t => t.doutValid) = some false ∧
    after (step (resetting { State.reset with doutValid := true })) (fun t => t.doutValid) = some false ∧
    after (step (offered State.reset 0b11#2 0#128)) (fun t => t.err) = some 0b10#2 ∧
    after (step (resetting { coreAt .fault 0#6 with err := 0b01#2 })) (fun t => t.err) = some 0b00#2 := by decide

theorem witness_ExactlyTwoFaultCauses :
    after (step (offered State.reset 0b10#2 0#128)) (fun t => (t.phase, t.err)) = some (.fault, 0b01#2) ∧
    after (step (offered { State.reset with keyValid := true } 0b11#2 0#128)) (fun t => (t.phase, t.err)) = some (.fault, 0b10#2) := by
  decide

theorem witness_OutputPortsShowTheState : ({ State.reset with doutValid := true } : State).doutValid = true := rfl

theorem witness_StepKeepsControlInvariant : ControlInv (coreAt .keyexp 40#6) ∧
    after (step (coreAt .keyexp 40#6)) (fun t => t.phase) = some .idle := ⟨witness_ControlInv.2.2.1, by decide⟩

theorem schedule0_expand (key : Block) : schedule0 (expand key) = key := by
  apply Vector.ext; intro i hi
  simp only [schedule0, Vector.getElem_ofFn, expand]
  rw [read_expandUpTo_below [] key (Nat.zero_le 40) (Nat.le_refl 40) i (by omega), expandUpTo, read_copyKey, dif_pos hi]

/-- The key invariant with a key that is not zero, and `key_valid = 1`; and in the busy phase after the key copy. -/
theorem witness_KeyInv (key : Block) : KeyInv { State.reset with EK := expand key, keyValid := true } ∧
    KeyInv { coreAt .keyexp 1#6 with IBUF := key, EK := copyKey [] key } := by
  refine ⟨KeyInv.mk (fun _ => ?_) (fun h => by cases h), KeyInv.mk (fun h => by cases h) (fun _ _ a ha => ?_)⟩
  · simp only [schedule0_expand]; exact fun _ _ => rfl
  · exact (read_expandUpTo_below [] key (Nat.zero_le 40) (Nat.le_refl 40) a (by simpa [coreAt] using ha)).symm

theorem witness_StepKeepsKeyInvariant : ∃ s t : State, ControlInv s ∧ KeyInv s ∧ s.keyValid = true ∧ step s = .next t :=
  ⟨{ State.reset with EK := expand (Vector.replicate 16 0x5a), keyValid := true }, _, by constructor <;> simp [State.reset],
    (witness_KeyInv _).1, rfl, stepOn_idle_quiet PortIn.quiet _ rfl rfl rfl⟩

theorem witness_StepKeepsMemoryForm : Memory.wf key12 ∧
    after (step { coreAt .keyexp 1#6 with EK := key12 }) (fun t => Memory.read t.EK 16) = some 0xa0#8 := by decide

theorem witness_NopChangesNothing : (offered State.reset 0b00#2 1#128).phase = .idle ∧
    (samplePort (offered State.reset 0b00#2 1#128)).cmdValid = true ∧ (samplePort (offered State.reset 0b00#2 1#128)).cmdOp = 0b00#2 := by
  decide

theorem witness_EncryptAcceptance : ({ State.reset with keyValid := true } : State).keyValid = true := rfl
theorem witness_EncryptWithoutKeyTakesNoKey : State.reset.keyValid = false := rfl
theorem witness_ArkResult : (0 ≤ 10 ∧ 10 ≤ 10) := by decide

/-- Both forms at the ends of their ranges. -/
theorem witness_KwordResult : (4 % 4 = 0 ∧ 40 % 4 = 0 ∧ 40 ≤ 43) ∧ (5 % 4 ≠ 0 ∧ 43 % 4 ≠ 0 ∧ 4 ≤ 5 ∧ 43 ≤ 43) ∧
    (175 < 4 * 43 + 4 ∧ 16 ≤ 4 * 4) := by decide

theorem witness_IndicesOutOfRangeRefused : 10 < 11 ∧ (3 < 4 ∨ 43 < 3) ∧ (44 < 4 ∨ 43 < 44) := by decide
theorem witness_XtimeIsFieldDoubling : (0x7F#8).toNat < 0x80 ∧ xtime 0x80#8 = xtime 0x80#8 := by decide
theorem witness_SboxIsPermutation : sbox 0xFF#8 = sbox 0xFF#8 := rfl
theorem witness_SboxIsAffineOfInverse : 0x01#8 ≠ 0#8 ∧ 0xFF#8 ≠ 0#8 := by decide
theorem witness_RconIsIteratedDoubling : (1 ≤ 1 ∧ 1 ≤ 9) ∧ (1 ≤ 9 ∧ 9 ≤ 9) := by decide
theorem witness_TransformLaws : subBytes State.reset.S = subBytes State.reset.S := rfl
theorem witness_ExpandRecurrence : (4 ≤ 4 ∧ 4 ≤ 43) ∧ (4 ≤ 43 ∧ 43 ≤ 43) ∧ expand State.reset.IBUF = expand State.reset.IBUF :=
  ⟨by decide, by decide, rfl⟩
theorem witness_ExpandDependsOnKeyOnly : Memory.wf key12 := by decide
theorem witness_CipherInjective : cipher key12 State.reset.IBUF = cipher key12 State.reset.IBUF := rfl

/-- One offered command, and no reset after it, for any number of steps. -/
theorem noReset_offered (n : Nat) (s : State) (op : BitVec 2) (data : BitVec 128) : noReset n (offered s op data) := by
  intro p hp
  have := List.mem_of_mem_take hp
  simp only [offered, List.mem_singleton] at this
  subst this; rfl

theorem witness_LoadkeyWholeCommand : (offered State.reset 0b01#2 5#128).phase = .idle ∧ noReset 42 (offered State.reset 0b01#2 5#128) ∧
    (samplePort (offered State.reset 0b01#2 5#128)).cmdValid = true ∧ (samplePort (offered State.reset 0b01#2 5#128)).cmdOp = 0b01#2 ∧
    (samplePort (offered State.reset 0b01#2 5#128)).cmdData = 5#128 ∧ Memory.wf (offered State.reset 0b01#2 5#128).EK :=
  ⟨by decide, noReset_offered _ _ _ _, by decide, by decide, by decide, by decide⟩

theorem witness_CipherStepsComputeCipher :
    (coreAt .cipher 0#6).phase = .cipher ∧ (coreAt .cipher 0#6).upc = 0#6 ∧ noReset 42 (coreAt .cipher 0#6) :=
  ⟨by decide, by decide, fun p hp => by simp [coreAt, State.reset] at hp⟩

/-- With an expanded key in `EK`, for the statement's last clause. -/
theorem witness_EncryptWholeCommand (key : Block) :
    let s := offered { State.reset with EK := expand key, keyValid := true } 0b10#2 5#128
    s.phase = .idle ∧ s.keyValid = true ∧ noReset 43 s ∧ (samplePort s).cmdValid = true ∧ (samplePort s).cmdOp = 0b10#2 ∧
      (samplePort s).cmdData = 5#128 ∧ sameWords 44 s.EK (expand key) :=
  ⟨rfl, rfl, noReset_offered _ _ _ _, rfl, rfl, rfl, fun _ _ => rfl⟩

/-- Both busy phases. -/
theorem witness_BusyPhaseEnds : (ControlInv (coreAt .keyexp 40#6) ∧ busy (coreAt .keyexp 40#6) = true ∧ noReset 42 (coreAt .keyexp 40#6)) ∧
    (ControlInv (coreAt .cipher 41#6) ∧ busy (coreAt .cipher 41#6) = true ∧ noReset 42 (coreAt .cipher 41#6)) :=
  ⟨⟨witness_ControlInv.2.2.1, by decide, fun p hp => by simp [coreAt, State.reset] at hp⟩,
    ⟨witness_ControlInv.2.2.2.2.1, by decide, fun p hp => by simp [coreAt, State.reset] at hp⟩⟩

/-- A key offered, `u` quiet steps, then a reset. -/
def aborted (u : Nat) : State :=
  { State.reset with inputs := { PortIn.quiet with cmdValid := true, cmdOp := 0b01#2, cmdData := 5#128 } ::
      (List.replicate u PortIn.quiet ++ [{ PortIn.quiet with rst := true }]) }

/-- The statement's clauses: u = 0, and u = 1 and 40 at the ends of the other. -/
theorem witness_ResetDuringExpansion : ∀ u ∈ [0, 1, 40], (aborted u).phase = .idle ∧ (samplePort (aborted u)).rst = false ∧
    (samplePort (aborted u)).cmdValid = true ∧ (samplePort (aborted u)).cmdOp = 0b01#2 ∧ u ≤ 40 ∧
    u + 2 ≤ (aborted u).inputs.length ∧ (∀ p ∈ (aborted u).inputs.take (u + 1), p.rst = false) ∧
    ((aborted u).inputs[u + 1]?).map (fun p => p.rst) = some true := by decide

/-- Two cores with different keys in `EK` and different data offered. -/
theorem witness_ControlIndependentOfData :
    let s := offered { State.reset with keyValid := true, EK := key12 } 0b10#2 5#128
    let t := offered { State.reset with keyValid := true } 0b10#2 6#128
    ControlInv s ∧ ControlInv t ∧ s.phase = t.phase ∧ s.upc = t.upc ∧ s.keyValid = t.keyValid ∧ s.doutValid = t.doutValid ∧
      s.err = t.err ∧
      s.inputs.map (fun p => (p.rst, p.cmdValid, p.cmdOp)) = t.inputs.map (fun p => (p.rst, p.cmdValid, p.cmdOp)) := by
  refine ⟨by constructor <;> decide, by constructor <;> decide, rfl, rfl, rfl, rfl, rfl, rfl⟩

/-- The same two cores, for two steps: no encryption ends in them. -/
theorem witness_PortsHideKeyMaterial :
    let s := offered { State.reset with keyValid := true, EK := key12 } 0b10#2 5#128
    let t := offered { State.reset with keyValid := true } 0b10#2 6#128
    s.DOUT = t.DOUT ∧ ∀ m < 2, ∀ x, runSteps m s = .next x → ¬ (x.phase = .cipher ∧ x.upc = 41#6) := by
  refine ⟨rfl, fun m hm x hx => ?_⟩
  have h0 : after (runSteps 0 (offered { State.reset with keyValid := true, EK := key12 } 0b10#2 5#128)) (fun t => t.upc) = some 0#6 := by
    decide
  have h1 : after (runSteps 1 (offered { State.reset with keyValid := true, EK := key12 } 0b10#2 5#128)) (fun t => t.upc) = some 0#6 := by
    decide
  have hm : m = 0 ∨ m = 1 := by omega
  rcases hm with rfl | rfl
  · rw [hx] at h0; intro h; simp only [after, goesOn, Option.map_some, Option.some.injEq, h.2] at h0; exact absurd h0 (by decide)
  · rw [hx] at h1; intro h; simp only [after, goesOn, Option.map_some, Option.some.injEq, h.2] at h1; exact absurd h1 (by decide)

/-- Both clauses; the second takes any state, here one in `FAULT`. -/
theorem witness_EcbStreamResults : State.reset.phase = .idle ∧ (coreAt .fault 0#6).phase = .fault ∧
    42 + 43 * [State.reset.IBUF, State.reset.DOUT].length ≤ 128 := by decide

theorem witness_BlockBeforeKeyEndsFaulted : State.reset.phase = .idle ∧ State.reset.keyValid = false ∧ 1 ≤ 1 := by decide

end Sys2Proof.Tests
end

-- The proofs of the family 10_state.md.

/-! SUPPORT. The cases of a completing step, by name, with the whole next state in each. -/

namespace Sys2Proof.Machine

open Sys2Proof

/-- `StepCase s t`: the step from `s` completes in `t`, by the row of the rules that applies (45_host_commands.md R190
to R195, 41_key_scheduler.md R127, 44_round_driver.md R173). -/
inductive StepCase (s : State) : State → Prop where
  | reset (hr : (samplePort s).rst = true) :
      StepCase s { s with phase := .idle, upc := 0#6, keyValid := false, doutValid := false, err := 0b00#2,
                          inputs := s.inputs.tail }
  | faultHeld (hr : (samplePort s).rst = false) (hp : s.phase = .fault) :
      StepCase s { s with inputs := s.inputs.tail }
  | quiet (hr : (samplePort s).rst = false) (hp : s.phase = .idle) (hv : (samplePort s).cmdValid = false) :
      StepCase s { s with inputs := s.inputs.tail }
  | nop (hr : (samplePort s).rst = false) (hp : s.phase = .idle) (hv : (samplePort s).cmdValid = true)
      (ho : (samplePort s).cmdOp = 0b00#2) :
      StepCase s { s with inputs := s.inputs.tail }
  | loadkey (hr : (samplePort s).rst = false) (hp : s.phase = .idle) (hv : (samplePort s).cmdValid = true)
      (ho : (samplePort s).cmdOp = 0b01#2) :
      StepCase s { s with IBUF := unpackBlock (samplePort s).cmdData, keyValid := false, phase := .keyexp, upc := 0#6,
                          inputs := s.inputs.tail }
  | encrypt (hr : (samplePort s).rst = false) (hp : s.phase = .idle) (hv : (samplePort s).cmdValid = true)
      (ho : (samplePort s).cmdOp = 0b10#2) (hk : s.keyValid = true) :
      StepCase s { s with IBUF := unpackBlock (samplePort s).cmdData, doutValid := false, phase := .cipher, upc := 0#6,
                          inputs := s.inputs.tail }
  | noKey (hr : (samplePort s).rst = false) (hp : s.phase = .idle) (hv : (samplePort s).cmdValid = true)
      (ho : (samplePort s).cmdOp = 0b10#2) (hk : s.keyValid = false) :
      StepCase s { s with err := 0b01#2, phase := .fault, upc := 0#6, inputs := s.inputs.tail }
  | illegalCommand (hr : (samplePort s).rst = false) (hp : s.phase = .idle) (hv : (samplePort s).cmdValid = true)
      (ho : (samplePort s).cmdOp = 0b11#2) :
      StepCase s { s with err := 0b10#2, phase := .fault, upc := 0#6, inputs := s.inputs.tail }
  | keyCopy (hr : (samplePort s).rst = false) (hp : s.phase = .keyexp) (hu : s.upc = 0#6) :
      StepCase s { s with EK := copyKey s.EK s.IBUF, upc := s.upc + 1#6, inputs := s.inputs.tail }
  | keyWord (hr : (samplePort s).rst = false) (hp : s.phase = .keyexp) (hu : 1 ≤ s.upc.toNat ∧ s.upc.toNat < 40) :
      StepCase s { s with EK := expandWord s.EK (s.upc.toNat + 3) ⟨by omega, by omega⟩, upc := s.upc + 1#6,
                          inputs := s.inputs.tail }
  | keyLast (hr : (samplePort s).rst = false) (hp : s.phase = .keyexp) (hu : s.upc = 40#6) :
      StepCase s { s with EK := expandWord s.EK 43 ⟨by omega, by omega⟩, keyValid := true, phase := .idle, upc := 0#6,
                          inputs := s.inputs.tail }
  | cipherRound (hr : (samplePort s).rst = false) (hp : s.phase = .cipher) (hu : s.upc.toNat < 41) (X : StateMatrix)
      (hX : exec (cromInstr s.upc.toNat) (consumePort s) = .next ((consumePort s).withS X)) :
      StepCase s { s with S := X, upc := s.upc + 1#6, inputs := s.inputs.tail }
  | cipherLast (hr : (samplePort s).rst = false) (hp : s.phase = .cipher) (hu : s.upc = 41#6) :
      StepCase s { s with DOUT := fromState s.S, doutValid := true, phase := .idle, upc := 0#6,
                          inputs := s.inputs.tail }

/-- `upc` does not wrap inside a ROM. -/
theorem toNat_upc_succ {u : BitVec 6} (h : u.toNat < 41) : (u + 1#6).toNat = u.toNat + 1 := by
  rw [BitVec.toNat_add]
  simp only [BitVec.toNat_ofNat]
  omega

theorem upc_ne_of_lt {u : BitVec 6} {n : Nat} (hn : n < 64) (h : u.toNat < n) : u ≠ BitVec.ofNat 6 n :=
  mt (upc_eq_iff hn).mp h.ne

theorem advanceKeyexp_next {s : State} (h : s.upc ≠ 40#6) : advanceKeyexp s = { s with upc := s.upc + 1#6 } := if_neg h

theorem advanceKeyexp_last {s : State} (h : s.upc = 40#6) :
    advanceKeyexp s = { s with keyValid := true, phase := .idle, upc := 0#6 } := if_pos h

theorem advanceCipher_next {s : State} (h : s.upc ≠ 41#6) : advanceCipher s = { s with upc := s.upc + 1#6 } := if_neg h

theorem advanceCipher_last {s : State} (h : s.upc = 41#6) :
    advanceCipher s = { s with doutValid := true, phase := .idle, upc := 0#6 } := if_pos h

/-- A step of the key expansion, by the place of `upc` in `KROM`. -/
theorem stepCase_keyexp {s : State} {E : Memory} (hr : (samplePort s).rst = false) (hp : s.phase = .keyexp)
    (hu : s.upc.toNat ≤ 40)
    (hE : exec (if s.upc.toNat = 0 then .kcopy else .kword (s.upc.toNat + 3)) (consumePort s) =
      .next ((consumePort s).withEK E)) :
    StepCase s (advanceKeyexp ((consumePort s).withEK E)) := by
  by_cases h0 : s.upc.toNat = 0
  · have hu0 : s.upc = 0#6 := (upc_eq_iff (by omega)).mpr h0
    rw [if_pos h0] at hE
    obtain rfl : copyKey s.EK s.IBUF = E := congrArg State.EK (Host.Outcome.next.inj hE)
    rw [advanceKeyexp_next (s := (consumePort s).withEK _) (show s.upc ≠ 40#6 by rw [hu0]; decide)]
    exact .keyCopy hr hp hu0
  · rw [if_neg h0, exec_kword _ _ ⟨by omega, by omega⟩] at hE
    obtain rfl : expandWord s.EK (s.upc.toNat + 3) ⟨by omega, by omega⟩ = E :=
      congrArg State.EK (Host.Outcome.next.inj hE)
    by_cases h40 : s.upc = 40#6
    · have hn : s.upc.toNat + 3 = 43 := by rw [h40]; rfl
      rw [advanceKeyexp_last (s := (consumePort s).withEK _) h40]
      simp only [hn]
      exact .keyLast hr hp h40
    · have hne : s.upc.toNat ≠ 40 := mt (upc_eq_iff (by omega)).mpr h40
      rw [advanceKeyexp_next (s := (consumePort s).withEK _) h40]
      exact .keyWord hr hp ⟨by omega, by omega⟩

/-- Every completing step is one of the cases. -/
theorem stepCase_of_step {s t : State} (h : step s = .next t) : StepCase s t := by
  obtain ⟨hr, rfl⟩ | ⟨hr, ⟨hp, rfl⟩ | ⟨hp, hv, rfl⟩ | ⟨hp, hv, he⟩ | ⟨hp, hu, E, rfl, he⟩ | ⟨hp, hu, r, rfl, he, hx⟩⟩ :=
    step_next h
  · exact .reset hr
  · exact .faultHeld hr hp
  · exact .quiet hr hp hv
  · obtain ⟨ho, rfl⟩ | ⟨ho, rfl⟩ | ⟨ho, hk, rfl⟩ | ⟨ho, hk, rfl⟩ | ⟨ho, rfl⟩ := exec_decodeCommand_next he
    · exact .nop hr hp hv ho
    · exact .loadkey hr hp hv ho
    · exact .encrypt hr hp hv ho hk
    · exact .noKey hr hp hv ho hk
    · exact .illegalCommand hr hp hv ho
  · exact stepCase_keyexp hr hp hu he
  · obtain ⟨X, rfl, hne⟩ | ⟨h41, rfl⟩ := hx
    · have hlt : s.upc.toNat ≠ 41 := mt (upc_eq_iff (by omega)).mpr hne
      rw [advanceCipher_next (s := (consumePort s).withS X) hne]
      exact .cipherRound hr hp (by omega) X he
    · rw [advanceCipher_last (s := (consumePort s).withDOUT _) h41, State.withDOUT]
      exact .cipherLast hr hp h41

/-! ### Which step writes an element -/

theorem step_writes_S {s t : State} (h : step s = .next t) (hne : t.S ≠ s.S) :
    (samplePort s).rst = false ∧ s.phase = .cipher ∧ s.upc ≠ 41#6 := by
  cases stepCase_of_step h with
  | cipherRound hr hp hu X hX => exact ⟨hr, hp, upc_ne_of_lt (by omega) hu⟩
  | _ => exact absurd rfl hne

theorem step_writes_EK {s t : State} (h : step s = .next t) (hne : t.EK ≠ s.EK) :
    (samplePort s).rst = false ∧ s.phase = .keyexp := by
  cases stepCase_of_step h with
  | keyCopy hr hp hu => exact ⟨hr, hp⟩
  | keyWord hr hp hu => exact ⟨hr, hp⟩
  | keyLast hr hp hu => exact ⟨hr, hp⟩
  | _ => exact absurd rfl hne

theorem step_writes_IBUF {s t : State} (h : step s = .next t) (hne : t.IBUF ≠ s.IBUF) :
    (samplePort s).rst = false ∧ s.phase = .idle ∧ (samplePort s).cmdValid = true ∧
      ((samplePort s).cmdOp = 0b01#2 ∨ (samplePort s).cmdOp = 0b10#2) := by
  cases stepCase_of_step h with
  | loadkey hr hp hv ho => exact ⟨hr, hp, hv, .inl ho⟩
  | encrypt hr hp hv ho hk => exact ⟨hr, hp, hv, .inr ho⟩
  | _ => exact absurd rfl hne

theorem step_writes_DOUT {s t : State} (h : step s = .next t) (hne : t.DOUT ≠ s.DOUT) :
    (samplePort s).rst = false ∧ s.phase = .cipher ∧ s.upc = 41#6 := by
  cases stepCase_of_step h with
  | cipherLast hr hp hu => exact ⟨hr, hp, hu⟩
  | _ => exact absurd rfl hne

theorem step_writes_keyValid {s t : State} (h : step s = .next t) (hne : t.keyValid ≠ s.keyValid) :
    (t.keyValid = true ∧ (samplePort s).rst = false ∧ s.phase = .keyexp ∧ s.upc = 40#6) ∨
    (t.keyValid = false ∧ ((samplePort s).rst = true ∨
      (s.phase = .idle ∧ (samplePort s).cmdValid = true ∧ (samplePort s).cmdOp = 0b01#2))) := by
  cases stepCase_of_step h with
  | keyLast hr hp hu => exact .inl ⟨rfl, hr, hp, hu⟩
  | reset hr => exact .inr ⟨rfl, .inl hr⟩
  | loadkey hr hp hv ho => exact .inr ⟨rfl, .inr ⟨hp, hv, ho⟩⟩
  | _ => exact absurd rfl hne

theorem step_writes_doutValid {s t : State} (h : step s = .next t) (hne : t.doutValid ≠ s.doutValid) :
    (t.doutValid = true ∧ (samplePort s).rst = false ∧ s.phase = .cipher ∧ s.upc = 41#6) ∨
    (t.doutValid = false ∧ ((samplePort s).rst = true ∨
      (s.phase = .idle ∧ s.keyValid = true ∧ (samplePort s).cmdValid = true ∧ (samplePort s).cmdOp = 0b10#2))) := by
  cases stepCase_of_step h with
  | cipherLast hr hp hu => exact .inl ⟨rfl, hr, hp, hu⟩
  | reset hr => exact .inr ⟨rfl, .inl hr⟩
  | encrypt hr hp hv ho hk => exact .inr ⟨rfl, .inr ⟨hp, hk, hv, ho⟩⟩
  | _ => exact absurd rfl hne

theorem step_writes_err {s t : State} (h : step s = .next t) (hne : t.err ≠ s.err) :
    (samplePort s).rst = true ∨ (s.phase = .idle ∧ t.phase = .fault) := by
  cases stepCase_of_step h with
  | reset hr => exact .inl hr
  | noKey hr hp hv ho hk => exact .inr ⟨hp, rfl⟩
  | illegalCommand hr hp hv ho => exact .inr ⟨hp, rfl⟩
  | _ => exact absurd rfl hne

/-! ### The control invariant -/

theorem ControlInv.err_zero {s : State} (h : ControlInv s) (hp : s.phase ≠ .fault) : s.err = 0b00#2 :=
  by_contra fun he => hp (h.faultIffErr.mpr he)

theorem ControlInv.of_idle {s : State} (hp : s.phase = .idle) (he : s.err = 0b00#2) (hu : s.upc = 0#6) :
    ControlInv s := by
  constructor <;> simp [hp, he, hu]

theorem ControlInv.of_fault {s : State} (hp : s.phase = .fault) (he : s.err = 0b01#2 ∨ s.err = 0b10#2)
    (hu : s.upc = 0#6) : ControlInv s := by
  rcases he with he | he <;> constructor <;> simp [hp, he, hu]

theorem ControlInv.of_keyexp {s : State} (hp : s.phase = .keyexp) (he : s.err = 0b00#2) (hu : s.upc.toNat ≤ 40)
    (hk : s.keyValid = false) : ControlInv s := by
  constructor <;> simp [hp, he, hu, hk]

theorem ControlInv.of_cipher {s : State} (hp : s.phase = .cipher) (he : s.err = 0b00#2) (hu : s.upc.toNat ≤ 41)
    (hk : s.keyValid = true) (hd : s.doutValid = false) : ControlInv s := by
  constructor <;> simp [hp, he, hu, hk, hd]

/-- The control invariant does not speak of the coming port samples. -/
theorem ControlInv.withInputs {s : State} (h : ControlInv s) (ps : List PortIn) :
    ControlInv { s with inputs := ps } := by
  obtain ⟨h1, h2, h3, h4, h5, h6, h7, h8, h9⟩ := h
  exact ⟨h1, h2, h3, h4, h5, h6, h7, h8, h9⟩

theorem controlInv_step {s t : State} (hs : ControlInv s) (h : step s = .next t) : ControlInv t := by
  have he : ∀ {p}, s.phase = p → p ≠ .fault → s.err = 0b00#2 := fun hp hne => hs.err_zero (hp ▸ hne)
  cases stepCase_of_step h with
  | reset hr => exact .of_idle rfl rfl rfl
  | faultHeld hr hp => exact hs.withInputs _
  | quiet hr hp hv => exact hs.withInputs _
  | nop hr hp hv ho => exact hs.withInputs _
  | loadkey hr hp hv ho => exact .of_keyexp rfl (he hp nofun) (by simp) rfl
  | encrypt hr hp hv ho hk => exact .of_cipher rfl (he hp nofun) (by simp) hk rfl
  | noKey hr hp hv ho hk => exact .of_fault rfl (.inl rfl) rfl
  | illegalCommand hr hp hv ho => exact .of_fault rfl (.inr rfl) rfl
  | keyCopy hr hp hu => exact .of_keyexp hp (he hp nofun) (by simp [hu]) (hs.keyexpKeyValid hp)
  | keyWord hr hp hu =>
    exact .of_keyexp hp (he hp nofun) (by rw [toNat_upc_succ (by omega)]; omega) (hs.keyexpKeyValid hp)
  | keyLast hr hp hu => exact .of_idle rfl (he hp nofun) rfl
  | cipherRound hr hp hu X hX =>
    exact .of_cipher hp (he hp nofun) (by rw [toNat_upc_succ hu]; omega) (hs.cipherKeyValid hp) (hs.cipherDoutValid hp)
  | cipherLast hr hp hu => exact .of_idle rfl (he hp nofun) rfl

/-! ### The key invariant -/

/-- The first 16 bytes of an expansion are the key (41_key_scheduler.md R121). -/
theorem read_expand_key (key : Block) (a : Nat) (ha : a < 16) : Memory.read (expand key) a = key[a] := by
  rw [expand, read_expandUpTo_below [] key (Nat.zero_le 40) (Nat.le_refl 40) a (by omega), expandUpTo, read_copyKey,
    dif_pos ha]

/-- `KCOPY` makes the first four words those of the expansion. -/
theorem sameWords_copyKey (E : Memory) (key : Block) : sameWords 4 (copyKey E key) (expand key) := by
  intro a ha
  rw [read_copyKey, dif_pos ha, read_expand_key key a ha]

/-- A word step makes one word more that of the expansion. -/
theorem sameWords_expandWord {E : Memory} {key : Block} {w : Nat} (hw : 4 ≤ w ∧ w ≤ 43)
    (h : sameWords w E (expand key)) : sameWords (w + 1) (expandWord E w hw) (expand key) := by
  obtain ⟨n, rfl⟩ : ∃ n, w = n + 4 := ⟨w - 4, by omega⟩
  have hn : n + 1 ≤ 40 := by omega
  have hbelow : ∀ a, a < 4 * (n + 4) → Memory.read E a = Memory.read (expandUpTo [] key n (by omega)) a := fun a ha =>
    (h a ha).trans (read_expandUpTo_below [] key (by omega) (Nat.le_refl 40) a (by omega))
  intro a ha
  rw [expand, read_expandUpTo_below [] key hn (Nat.le_refl 40) a (by omega), expandUpTo, read_expandWord,
    read_expandWord, nextWord_congr (n + 4) hw hbelow]
  split
  · rfl
  · exact hbelow a (by omega)

/-- A whole expansion names its key in round-key block 0. -/
theorem schedule0_of_sameWords {E : Memory} {key : Block} (h : sameWords 44 E (expand key)) : schedule0 E = key := by
  apply Vector.ext
  intro i hi
  rw [schedule0, Vector.getElem_ofFn, h i (by omega), read_expand_key key i hi]

theorem keyInv_step {s t : State} (hs : ControlInv s) (hk : KeyInv s) (h : step s = .next t) : KeyInv t := by
  have noValidKey : ∀ {P : Prop}, s.phase = .keyexp → s.keyValid = true → P := fun hp hv =>
    absurd ((hs.keyexpKeyValid hp).symm.trans hv) nofun
  cases stepCase_of_step h with
  | reset hr => exact ⟨nofun, nofun⟩
  | faultHeld hr hp => exact ⟨hk.complete, hk.partly⟩
  | quiet hr hp hv => exact ⟨hk.complete, hk.partly⟩
  | nop hr hp hv ho => exact ⟨hk.complete, hk.partly⟩
  | loadkey hr hp hv ho => exact ⟨nofun, fun _ h1 => absurd h1 (by simp)⟩
  | encrypt hr hp hv ho hkv => exact ⟨hk.complete, nofun⟩
  | noKey hr hp hv ho hkv => exact ⟨hk.complete, nofun⟩
  | illegalCommand hr hp hv ho => exact ⟨hk.complete, nofun⟩
  | keyCopy hr hp hu =>
    refine ⟨noValidKey hp, fun _ _ => ?_⟩
    simp only [hu]
    exact sameWords_copyKey s.EK s.IBUF
  | keyWord hr hp hu =>
    refine ⟨noValidKey hp, fun _ _ => ?_⟩
    simp only [toNat_upc_succ (show s.upc.toNat < 41 by omega)]
    exact sameWords_expandWord _ (hk.partly hp hu.1)
  | keyLast hr hp hu =>
    have hpart : sameWords 43 s.EK (expand s.IBUF) := by simpa [hu] using hk.partly hp (by simp [hu])
    have hall := sameWords_expandWord ⟨by omega, by omega⟩ hpart
    exact ⟨fun _ => by rw [schedule0_of_sameWords hall]; exact hall, nofun⟩
  | cipherRound hr hp hu X hX => exact ⟨hk.complete, fun h' => absurd (hp.symm.trans h') nofun⟩
  | cipherLast hr hp hu => exact ⟨hk.complete, nofun⟩

/-! ### The control elements step by themselves -/

/-- What a host drives but the data: reset, `cmd_valid`, `cmd_op`. -/
def PortIn.control (p : PortIn) : Bool × Bool × BitVec 2 := (p.rst, p.cmdValid, p.cmdOp)

/-- The control elements of a core, and what its host will drive but the data. -/
structure Control where
  phase     : Phase
  upc       : BitVec 6
  keyValid  : Bool
  doutValid : Bool
  err       : BitVec 2
  offers    : List (Bool × Bool × BitVec 2)

def State.control (s : State) : Control :=
  { phase := s.phase, upc := s.upc, keyValid := s.keyValid, doutValid := s.doutValid, err := s.err,
    offers := s.inputs.map PortIn.control }

/-- The acceptance of a command, on the control elements (45_host_commands.md R192 to R195). -/
def Control.accept (op : BitVec 2) (c : Control) : Control :=
  if op = 0b00#2 then c
  else if op = 0b01#2 then { c with keyValid := false, phase := .keyexp, upc := 0#6 }
  else if op = 0b11#2 then { c with err := 0b10#2, phase := .fault, upc := 0#6 }
  else if c.keyValid then { c with doutValid := false, phase := .cipher, upc := 0#6 }
  else { c with err := 0b01#2, phase := .fault, upc := 0#6 }

/-- The step on one port sample, on the control elements (45_host_commands.md R190). -/
def Control.stepOn (p : Bool × Bool × BitVec 2) (c : Control) : Control :=
  if p.1 then { c with phase := .idle, upc := 0#6, keyValid := false, doutValid := false, err := 0b00#2 }
  else
    match c.phase with
    | .fault => c
    | .idle => if p.2.1 then c.accept p.2.2 else c
    | .keyexp =>
      if c.upc = 40#6 then { c with keyValid := true, phase := .idle, upc := 0#6 } else { c with upc := c.upc + 1#6 }
    | .cipher =>
      if c.upc = 41#6 then { c with doutValid := true, phase := .idle, upc := 0#6 } else { c with upc := c.upc + 1#6 }

/-- The whole step on the control elements: a function of nothing else. -/
def Control.step (c : Control) : Control :=
  Control.stepOn (c.offers.headD PortIn.quiet.control) { c with offers := c.offers.tail }

theorem control_step_eq (s : State) :
    s.control.step = Control.stepOn (samplePort s).control (consumePort s).control := by
  cases h : s.inputs <;> simp [Control.step, State.control, samplePort, h]

/-- The control elements after a step are those the control step gives (44_round_driver.md R170). -/
theorem control_of_step {s t : State} (h : step s = .next t) : t.control = s.control.step := by
  rw [control_step_eq]
  cases stepCase_of_step h with
  | keyWord hr hp hu =>
    have hne : s.upc ≠ 40#6 := upc_ne_of_lt (by omega) hu.2
    simp [Control.stepOn, PortIn.control, State.control, hr, hp, hne]
  | cipherRound hr hp hu X hX =>
    have hne : s.upc ≠ 41#6 := upc_ne_of_lt (by omega) hu
    simp [Control.stepOn, PortIn.control, State.control, hr, hp, hne]
  | _ => simp [Control.stepOn, Control.accept, PortIn.control, State.control, *]

/-- From the control invariant a step has a next state (45_host_commands.md R190). -/
theorem step_completes {s : State} (hs : ControlInv s) : ∃ t, step s = .next t := by
  rw [step]
  cases hr : (samplePort s).rst with
  | true => exact ⟨_, stepOn_reset _ _ hr⟩
  | false =>
    cases hp : s.phase with
    | fault => exact ⟨_, stepOn_fault _ _ hr hp⟩
    | idle =>
      cases hv : (samplePort s).cmdValid with
      | false => exact ⟨_, stepOn_idle_quiet _ _ hr hp hv⟩
      | true => exact ⟨_, (stepOn_idle_command _ (consumePort s) hr hp hv).trans (exec_decodeCommand _ _ _)⟩
    | keyexp =>
      have hle := hs.keyexpUpc hp
      obtain ⟨u, hu, hd⟩ := krom_fetch s.upc.toNat hle
      rw [stepOn_keyexp _ (consumePort s) hr hp, runMicro_fetched (s := consumePort s) hu hd]
      split
      · exact ⟨_, rfl⟩
      · exact ⟨_, by rw [exec_kword _ _ ⟨by omega, by omega⟩]; rfl⟩
    | cipher =>
      have hle := hs.cipherUpc hp
      obtain ⟨u, hu, hd⟩ := crom_fetch s.upc.toNat hle
      rw [stepOn_cipher _ (consumePort s) hr hp, runMicro_fetched (s := consumePort s) hu hd]
      by_cases h41 : s.upc.toNat = 41
      · exact ⟨_, by rw [(exec_cromInstr _ hle).1 h41]; rfl⟩
      · obtain ⟨X, hX⟩ := (exec_cromInstr _ hle).2 h41 (consumePort s)
        exact ⟨_, by rw [hX]; rfl⟩

/-! ### What the ports show -/

/-- No output depends on anything but the control elements and `DOUT`. -/
theorem outputs_congr {s t : State} (hc : s.control = t.control) (hd : s.DOUT = t.DOUT) : outputs s = outputs t := by
  injection hc with hp hu hk hv he ho
  simp only [outputs, doutPort, ready, hp, hu, hk, hv, he, hd]

/-- A step that ends no encryption leaves `DOUT` alone. -/
theorem dout_of_step {s t : State} (h : step s = .next t) (hend : ¬ (s.phase = .cipher ∧ s.upc = 41#6)) :
    t.DOUT = s.DOUT :=
  by_contra fun hne => hend (step_writes_DOUT h hne).2

/-- Two cores with the same control elements and the same `DOUT` keep both the same as long as no encryption ends. -/
theorem runs_agree {s t : State} {n : Nat} (hs : ControlInv s) (ht : ControlInv t) (hc : s.control = t.control)
    (hd : s.DOUT = t.DOUT)
    (hend : ∀ m < n, ∀ x, runSteps m s = .next x → ¬ (x.phase = .cipher ∧ x.upc = 41#6)) :
    ∃ s' t', runSteps n s = .next s' ∧ runSteps n t = .next t' ∧ s'.control = t'.control ∧ s'.DOUT = t'.DOUT := by
  induction n generalizing s t with
  | zero => exact ⟨s, t, rfl, rfl, hc, hd⟩
  | succ n ih =>
    obtain ⟨s₁, hs₁⟩ := step_completes hs
    obtain ⟨t₁, ht₁⟩ := step_completes ht
    have hends : ¬ (s.phase = .cipher ∧ s.upc = 41#6) := hend 0 (Nat.succ_pos n) s rfl
    have hendt : ¬ (t.phase = .cipher ∧ t.upc = 41#6) := by
      injection hc with hp hu
      rwa [← hp, ← hu]
    have hc₁ : s₁.control = t₁.control := by rw [control_of_step hs₁, control_of_step ht₁, hc]
    have hd₁ : s₁.DOUT = t₁.DOUT := by rw [dout_of_step hs₁ hends, dout_of_step ht₁ hendt, hd]
    rw [runSteps_succ n hs₁, runSteps_succ n ht₁]
    exact ih (controlInv_step hs hs₁) (controlInv_step ht ht₁) hc₁ hd₁ fun m hm x hx =>
      hend (m + 1) (Nat.succ_lt_succ hm) x ((runSteps_succ m hs₁).trans hx)

/-- The bits of bytes laid on a bus one after another are those of any of them. -/
theorem getLsbD_foldl_or {α : Type} (f : α → BitVec 128) (l : List α) (acc : BitVec 128) (j : Nat) :
    (l.foldl (fun acc i => acc ||| f i) acc).getLsbD j = (acc.getLsbD j || l.any fun i => (f i).getLsbD j) := by
  induction l generalizing acc with
  | nil => simp
  | cons i l ih => rw [List.foldl_cons, ih, BitVec.getLsbD_or, List.any_cons, Bool.or_assoc]

/-- Bit `k` of the place of byte `i` shows that byte alone. -/
theorem getLsbD_placed_byte (b : Block) (i m : Fin 16) (k : Nat) (hk : k < 8) :
    ((b[m]).setWidth 128 <<< (120 - 8 * m.val)).getLsbD (120 - 8 * i.val + k) =
      (decide (m = i) && (b[i]).getLsbD k) := by
  rw [BitVec.getLsbD_shiftLeft, BitVec.getLsbD_setWidth]
  by_cases hm : m = i
  · subst hm
    have h1 : 120 - 8 * m.val + k < 128 := by omega
    have h2 : ¬ 120 - 8 * m.val + k < 120 - 8 * m.val := by omega
    have h3 : 120 - 8 * m.val + k - (120 - 8 * m.val) = k := by omega
    have h4 : k < 128 := by omega
    simp [h1, h2, h3, h4]
  · have hne : m.val ≠ i.val := fun h => hm (Fin.ext h)
    by_cases hlow : 120 - 8 * i.val + k < 120 - 8 * m.val
    · simp [hm, hlow]
    · rw [BitVec.getLsbD_of_ge (b[m]) _ (by omega)]
      simp [hm]

/-- Byte `i` of a packed block lies on bits [127-8i : 120-8i] (30_encoding.md R83). -/
theorem extractLsb'_packBlock (b : Block) (i : Fin 16) : (packBlock b).extractLsb' (120 - 8 * i.val) 8 = b[i] := by
  apply BitVec.eq_of_getLsbD_eq
  intro k hk
  have hone : (List.finRange 16).any (fun m => decide (m = i) && (b[i]).getLsbD k) = (b[i]).getLsbD k := by
    rw [Bool.eq_iff_iff, List.any_eq_true]
    simp [List.mem_finRange]
  rw [BitVec.getLsbD_extractLsb', packBlock, getLsbD_foldl_or]
  simp only [getLsbD_placed_byte b i _ k hk, hone]
  simp [hk]

/-- The bits of the status vector (10_state.md R32), for every value of its four parts. -/
theorem status_bits (e : BitVec 2) (d k r : Bool) :
    let v := e ++ BitVec.ofBool d ++ BitVec.ofBool k ++ BitVec.ofBool r
    v.getLsbD 0 = r ∧ v.getLsbD 1 = k ∧ v.getLsbD 2 = d ∧ v.extractLsb' 3 2 = e := by
  revert e d k r
  decide

theorem ready_iff (s : State) : ready s = true ↔ s.phase = .idle := decide_eq_true_iff

/-! ### The statements -/

/-- Settles O22: the cases of a step, each in the phase it ends in. -/
theorem stepKeepsControlInvariant : Obligations.StepKeepsControlInvariant := fun _ _ => controlInv_step

/-- Settles O23: each step of the expansion makes one word more that of `Expand(IBUF)`, the last one the whole. -/
theorem stepKeepsKeyInvariant : Obligations.StepKeepsKeyInvariant := fun _ _ => keyInv_step

/-- Settles O58: the control elements step by themselves, `DOUT` stays while no encryption ends, and the ports show
nothing else. -/
theorem portsHideKeyMaterial : Obligations.PortsHideKeyMaterial := by
  intro s t n hs ht hp hu hk hv he hd ho hend
  have hc : s.control = t.control := (Control.mk.injEq ..).mpr ⟨hp, hu, hk, hv, he, ho⟩
  obtain ⟨s', t', hs', ht', hc', hd'⟩ := runs_agree hs ht hc hd hend
  exact ⟨s', t', hs', ht', outputs_congr hc' hd'⟩

/-- Settles O17, an element at a time. -/
theorem dataElementsChangeOnlyByTheirWriters : Obligations.DataElementsChangeOnlyByTheirWriters := fun _ _ h =>
  ⟨step_writes_S h, step_writes_EK h, step_writes_IBUF h, step_writes_DOUT h⟩

/-- Settles O18, a flag at a time. -/
theorem flagsChangeOnlyByTheirWriters : Obligations.FlagsChangeOnlyByTheirWriters := fun _ _ h =>
  ⟨step_writes_keyValid h, step_writes_doutValid h, step_writes_err h⟩

/-- Settles O20: the bytes of a packed block on the bus, and the bits of the status vector. -/
theorem outputPortsShowTheState : Obligations.OutputPortsShowTheState := by
  intro s
  obtain ⟨hready, hkey, hdout, herr⟩ := status_bits s.err s.doutValid s.keyValid (ready s)
  refine ⟨ready_iff s, rfl, rfl, rfl, fun hv i => ?_, ?_, hkey, hdout, herr⟩
  · simp only [outputs, doutPort, hv, if_true]
    exact extractLsb'_packBlock s.DOUT i
  · exact (Bool.eq_iff_iff.mp hready).trans (ready_iff s)

end Sys2Proof.Machine

-- The proofs of the family 20_memory.md.

namespace Sys2Proof.Machine

open Sys2Proof

/-! ### The packing of the buses -/

@[simp] theorem getElem_unpackBlock (d : BitVec 128) (i : Nat) (hi : i < 16) :
    (unpackBlock d)[i] = d.extractLsb' (120 - 8 * i) 8 := by
  simp [unpackBlock]

theorem getLsbD_unpackBlock (d : BitVec 128) (i : Fin 16) (j : Fin 8) :
    ((unpackBlock d)[i]).getLsbD j = d.getLsbD (120 - 8 * i.val + j) := by
  simp

theorem getLsbD_packBlock (b : Block) (i : Fin 16) (j : Fin 8) :
    (packBlock b).getLsbD (120 - 8 * i.val + j) = (b[i]).getLsbD j := by
  rw [← extractLsb'_packBlock b i]
  simp

/-- Every bit of the bus belongs to a byte. -/
theorem exists_bit_of_byte {k : Nat} (hk : k < 128) : ∃ (i : Fin 16) (j : Fin 8), k = 120 - 8 * i.val + j :=
  ⟨⟨15 - k / 8, by omega⟩, ⟨k % 8, by omega⟩, by simp only; omega⟩

theorem packBlock_unpackBlock (d : BitVec 128) : packBlock (unpackBlock d) = d := by
  apply BitVec.eq_of_getLsbD_eq
  intro k hk
  obtain ⟨i, j, rfl⟩ := exists_bit_of_byte hk
  rw [getLsbD_packBlock, getLsbD_unpackBlock]

theorem unpackBlock_packBlock (b : Block) : unpackBlock (packBlock b) = b := by
  apply Vector.ext
  intro i hi
  rw [getElem_unpackBlock]
  exact extractLsb'_packBlock b ⟨i, hi⟩

/-- Settles O7: the bits of a byte in both directions; the inverses follow, as every bit of the bus is one of a byte. -/
theorem busPackingByteOrder : Obligations.BusPackingByteOrder :=
  ⟨getLsbD_unpackBlock, getLsbD_packBlock, packBlock_unpackBlock, unpackBlock_packBlock⟩

/-! ### The form of the memory -/

/-- Settles O24: the three cases of a step that write `EK` write a key or a word of the schedule, below byte 176. -/
theorem stepKeepsMemoryForm : Obligations.StepKeepsMemoryForm := by
  intro s t hs h
  cases stepCase_of_step h with
  | keyCopy hr hp hu => exact copyKey_wf hs s.IBUF
  | keyWord hr hp hu => exact expandWord_wf hs _ _
  | keyLast hr hp hu => exact expandWord_wf hs 43 _
  | _ => exact hs

end Sys2Proof.Machine

-- The proofs of the family 30_encoding.md.

namespace Sys2Proof.Machine

open Sys2Proof

/-! ### The micro-operation words -/

/-- The class of a word (30_encoding.md R84) as a number. -/
theorem uopClass_eq_iff (u : BitVec 8) (c : BitVec 2) : u.extractLsb' 6 2 = c ↔ u.toNat / 64 = c.toNat := by
  have hc : (u.extractLsb' 6 2).toNat = u.toNat / 64 := by
    rw [BitVec.extractLsb'_toNat, Nat.shiftRight_eq_div_pow]; omega
  rw [← hc, BitVec.toNat_inj]

/-- The immediate of a word (R84, R87) as a number. -/
theorem uopImmediate_toNat (u : BitVec 8) : (u.extractLsb' 0 6).toNat = u.toNat % 64 := by
  simp

theorem uop_ofNat_toNat {u : BitVec 8} {n : Nat} (h : u.toNat = n) : Code.uop (BitVec.ofNat 8 n) = .uop u := by
  rw [← h, BitVec.ofNat_toNat, BitVec.setWidth_eq]

theorem decodeUop_ark {u : BitVec 8} {k : Nat} (hu : u.toNat = 0x40 + k) (hk : k ≤ 10) :
    decodeUop u = some (.ark k) := by
  have hc : u.toNat / 64 = 1 := by omega
  have hi : u.toNat % 64 = k := by omega
  simp [decodeUop, uopClass_eq_iff, hc, hi, hk]

theorem decodeUop_kword {u : BitVec 8} {w : Nat} (hu : u.toNat = 0x80 + w) (hw : 4 ≤ w ∧ w ≤ 43) :
    decodeUop u = some (.kword w) := by
  have hc : u.toNat / 64 = 2 := by omega
  have hi : u.toNat % 64 = w := by omega
  simp [decodeUop, uopClass_eq_iff, hc, hi, hw]

/-- A word that decodes is the encoding of a well-formed instruction, branch by branch of the rule (R86). -/
theorem encode_of_decodeUop {u : BitVec 8} {i : Instr} (h : decodeUop u = some i) :
    encode i = .uop u ∧ i.wf = true := by
  simp only [decodeUop, uopClass_eq_iff, uopImmediate_toNat, BitVec.toNat_ofNat] at h
  split at h
  · -- class 0b00: a fixed word
    repeat' split at h
    all_goals cases h
    all_goals exact ⟨uop_ofNat_toNat (by omega), rfl⟩
  split at h
  · -- class 0b01: `ARK`
    split at h <;> cases h
    next hk => exact ⟨uop_ofNat_toNat (by omega), decide_eq_true hk⟩
  split at h
  · -- class 0b10: `KWORD`
    split at h <;> cases h
    next hw => exact ⟨uop_ofNat_toNat (by omega), decide_eq_true hw⟩
  · cases h

/-- The words without a meaning, as the rule lists them (R89): class by class, what the immediate leaves over. -/
theorem decodeUop_eq_none_iff (u : BitVec 8) : decodeUop u = none ↔
    (u.toNat = 0x00 ∨ (0x07 ≤ u.toNat ∧ u.toNat ≤ 0x3F) ∨ (0x4B ≤ u.toNat ∧ u.toNat ≤ 0x7F) ∨
      (0x80 ≤ u.toNat ∧ u.toNat ≤ 0x83) ∨ (0xAC ≤ u.toNat ∧ u.toNat ≤ 0xBF) ∨ (0xC0 ≤ u.toNat ∧ u.toNat ≤ 0xFF)) := by
  have hlt : u.toNat < 256 := u.isLt
  simp only [decodeUop, uopClass_eq_iff, uopImmediate_toNat, BitVec.toNat_ofNat]
  split
  · -- class 0b00: the immediates 0 and 7 to 63
    repeat' split
    all_goals simp only [reduceCtorEq, false_iff, true_iff]
    all_goals omega
  split
  · -- class 0b01: the immediates above 10
    split <;> simp only [reduceCtorEq, false_iff, true_iff] <;> omega
  split
  · -- class 0b10: the immediates below 4 and above 43
    split <;> simp only [reduceCtorEq, false_iff, true_iff] <;> omega
  · -- class 0b11: every immediate
    simp only [true_iff]
    omega

/-! ### The commands, and both formats -/

theorem decode_nop (data : BitVec 128) : decode (.cmd (0b00#2 ++ data)) = some .nop :=
  decode_command_append _ data

theorem decode_loadkey (data : BitVec 128) : decode (.cmd (0b01#2 ++ data)) = some (.loadkey (unpackBlock data)) :=
  decode_command_append _ data

theorem decode_encrypt (data : BitVec 128) : decode (.cmd (0b10#2 ++ data)) = some (.encrypt (unpackBlock data)) :=
  decode_command_append _ data

theorem decode_reserved0b11 (data : BitVec 128) : decode (.cmd (0b11#2 ++ data)) = some .reserved0b11 :=
  decode_command_append _ data

theorem decode_encode {i : Instr} (h : i.wf = true) : decode (encode i) = some i := by
  cases i with
  | nop => exact decode_nop 0#128
  | loadkey key => rw [encode, decode_loadkey, unpackBlock_packBlock]
  | encrypt block => rw [encode, decode_encrypt, unpackBlock_packBlock]
  | reserved0b11 => exact decode_reserved0b11 0#128
  | ark k =>
    have hk : k ≤ 10 := of_decide_eq_true h
    exact decodeUop_ark (Nat.mod_eq_of_lt (by omega)) hk
  | kword w =>
    have hw : 4 ≤ w ∧ w ≤ 43 := of_decide_eq_true h
    exact decodeUop_kword (Nat.mod_eq_of_lt (by omega)) hw
  | _ => rfl

/-! ### The statements on decoding -/

/-- Settles O1: a command's two fields come out of its 130 bits, and a block out of its packing; a word's class and
immediate are the quotient and the remainder by 64. -/
theorem decodeInvertsEncode : Obligations.DecodeInvertsEncode := fun _ => decode_encode

/-- Settles O2: in each branch of the decoder class and immediate make up the word. -/
theorem encodeInvertsMicroDecode : Obligations.EncodeInvertsMicroDecode := by
  intro u i h
  obtain ⟨hword, hwf⟩ := encode_of_decodeUop h
  exact ⟨hword, hwf, decodeUop_micro h⟩

/-- Settles O4: each word computes to its instruction's encoding, but for the two whose ignored data bits are set. -/
theorem wordsWrittenFromTheTables : Obligations.WordsWrittenFromTheTables :=
  ⟨decode_encode (i := .lds) rfl, decode_encode (i := .sub) rfl, decode_encode (i := .shr) rfl,
    decode_encode (i := .mix) rfl, decode_encode (i := .sts) rfl, decode_encode (i := .kcopy) rfl,
    decode_encode (i := .ark 10) rfl, decode_encode (i := .kword 43) rfl,
    decode_nop 0xffffffffffffffffffffffffffffffff#128,
    decode_encode (i := .loadkey #v[0, 1, 2, 3, 4, 5, 6, 7, 8, 9, 10, 11, 12, 13, 14, 15]) rfl,
    decode_encode (i := .encrypt
      #v[0x00, 0x11, 0x22, 0x33, 0x44, 0x55, 0x66, 0x77, 0x88, 0x99, 0xaa, 0xbb, 0xcc, 0xdd, 0xee, 0xff]) rfl,
    decode_reserved0b11 1#128⟩

/-! ### What has no meaning -/

theorem rom_words_decode : ∀ u ∈ crom ++ krom, decodeUop u ≠ none := by decide

theorem runMicro_reserved {rom : List (BitVec 8)} {after : State → State} {s : State} {u : BitVec 8}
    (hu : rom[s.upc.toNat]? = some u) (hd : decodeUop u = none) : runMicro rom after s = .refused (.reservedWord u) := by
  simp [runMicro, hu, hd]

/-- Settles O3: the refusing branches of the decoder as ranges of words, the 83 words of the ROMs, and a fetch that does
not decode. -/
theorem reservedWordsRefused : Obligations.ReservedWordsRefused :=
  ⟨decodeUop_eq_none_iff, fun u hu => rom_words_decode u (List.mem_append.mpr hu), fun _ _ _ _ => runMicro_reserved⟩

theorem exec_ark_refused {k : Nat} (s : State) (h : 10 < k) : exec (.ark k) s = .refused (.arkIndex k) :=
  dif_neg (by omega)

theorem exec_kword_refused {w : Nat} (s : State) (h : w < 4 ∨ 43 < w) : exec (.kword w) s = .refused (.kwordIndex w) :=
  dif_neg (by omega)

/-- Settles O38: the range checks of the two indexed micro-operations. -/
theorem indicesOutOfRangeRefused : Obligations.IndicesOutOfRangeRefused :=
  ⟨fun _ s => exec_ark_refused s, fun _ s => exec_kword_refused s⟩

/-! ### Lines and groups of a text -/

/-- The characters that end a group, a line or a statement. -/
abbrev separators : List Char := [' ', '\t', '\n', ';']

/-- What stands between separators: a keyword or an operand. -/
def IsGroup (g : List Char) : Prop := g ≠ [] ∧ ∀ c ∈ g, c ∉ separators

theorem not_mem_group {g : List Char} {c : Char} (hg : IsGroup g) (hc : c ∈ separators) : c ∉ g :=
  fun hmem => hg.2 c hmem hc

theorem linesFrom_line {line : List Char} (h : '\n' ∉ line) (cur rest : List Char) :
    linesFrom cur (line ++ '\n' :: rest) = (cur ++ line) :: linesFrom [] rest := by
  induction line generalizing cur with
  | nil => simp [linesFrom]
  | cons c cs ih =>
    obtain ⟨hc, hcs⟩ := not_or.mp (mt List.mem_cons.mpr h)
    rw [List.cons_append, linesFrom, if_neg (Ne.symm hc), ih hcs, List.append_assoc, List.singleton_append]

theorem groupsFrom_append {g : List Char} (h : ∀ c ∈ g, c ∉ separators) (cur rest : List Char) :
    groupsFrom cur (g ++ rest) = groupsFrom (cur ++ g) rest := by
  induction g generalizing cur with
  | nil => simp
  | cons c cs ih =>
    obtain ⟨hc, hcs⟩ := List.forall_mem_cons.mp h
    have hblank : ¬ (c = ' ' ∨ c = '\t') := by rintro (rfl | rfl) <;> exact hc (by decide)
    rw [List.cons_append, groupsFrom, if_neg hblank, ih hcs, List.append_assoc, List.singleton_append]

theorem groupsFrom_group {g : List Char} (h : IsGroup g) : groupsFrom [] g = [g] := by
  have hg := groupsFrom_append h.2 [] []
  rwa [List.append_nil, List.nil_append, groupsFrom, pushGroup, if_neg h.1] at hg

theorem groupsFrom_group_blank {g : List Char} (h : IsGroup g) (rest : List Char) :
    groupsFrom [] (g ++ ' ' :: rest) = g :: groupsFrom [] rest := by
  rw [groupsFrom_append h.2, List.nil_append, groupsFrom, if_pos (.inl rfl), pushGroup, if_neg h.1]

/-- A line without a comment is cut as a whole. -/
theorem groupsOfLine_eq {line : List Char} (h : ';' ∉ line) : groupsOfLine line = groupsFrom [] line := by
  rw [groupsOfLine, List.takeWhile_eq_self_iff.mpr]
  exact fun c hc => decide_eq_true (ne_of_mem_of_not_mem hc h)

theorem groupsOfLine_operand {kw op : List Char} (hkw : IsGroup kw) (hop : IsGroup op) :
    groupsOfLine (kw ++ ' ' :: op) = [kw, op] := by
  have hline : ';' ∉ kw ++ ' ' :: op := by
    simp [not_mem_group hkw, not_mem_group hop]
  rw [groupsOfLine_eq hline, groupsFrom_group_blank hkw, groupsFrom_group hop]

/-! ### Hexadecimal operands -/

theorem hexValue_hexChar {n : Nat} (h : n < 16) : hexValue (hexChar n) = some n := by
  have hall : ∀ n : Fin 16, hexValue (hexChar n.val) = some n.val := by decide
  exact hall ⟨n, h⟩

theorem hexChar_not_separator {n : Nat} (h : n < 16) : hexChar n ∉ separators := by
  have hall : ∀ n : Fin 16, hexChar n.val ∉ separators := by decide
  exact hall ⟨n, h⟩

theorem hex_digits_lt (b : Byte) : b.toNat / 16 < 16 ∧ b.toNat % 16 < 16 := by
  have hlt : b.toNat < 256 := b.isLt
  omega

theorem parseBytes_byteText (b : Byte) {cs : List Char} {bs : List Byte} (h : parseBytes cs = some bs) :
    parseBytes (byteText b ++ cs) = some (b :: bs) := by
  obtain ⟨hhigh, hlow⟩ := hex_digits_lt b
  have hb : 16 * (b.toNat / 16) + b.toNat % 16 = b.toNat := Nat.div_add_mod ..
  simp [byteText, parseBytes, hexValue_hexChar hhigh, hexValue_hexChar hlow, h, hb]

theorem parseBytes_bytesText (bs : List Byte) : parseBytes (bs.map byteText).flatten = some bs := by
  induction bs with
  | nil => rfl
  | cons b bs ih => exact parseBytes_byteText b ih

theorem parseBlock_blockText (b : Block) : parseBlock [blockText b] = some b := by
  simp [parseBlock, parseGroups, blockText, parseBytes_bytesText, Vector.toArray_toList]

theorem byteText_not_separator (b : Byte) : ∀ c ∈ byteText b, c ∉ separators := by
  obtain ⟨hhigh, hlow⟩ := hex_digits_lt b
  exact List.forall_mem_cons.mpr ⟨hexChar_not_separator hhigh, List.forall_mem_singleton.mpr (hexChar_not_separator hlow)⟩

theorem isGroup_blockText (b : Block) : IsGroup (blockText b) := by
  constructor
  · intro hnil
    have hb := parseBlock_blockText b
    rw [hnil] at hb
    cases hb
  · intro c hc
    obtain ⟨cs, hcs, hc⟩ := List.mem_flatten.mp hc
    obtain ⟨x, -, rfl⟩ := List.mem_map.mp hcs
    exact byteText_not_separator x c hc

/-! ### Decimal operands -/

theorem parseDecimal_digits {cs : List Char} (h : ∀ c ∈ cs, c.isDigit = true) (acc : Nat) :
    parseDecimal acc cs = some (Nat.ofDigitChars 10 cs acc) := by
  induction cs generalizing acc with
  | nil => rfl
  | cons c cs ih =>
    obtain ⟨hc, hcs⟩ := List.forall_mem_cons.mp h
    rw [parseDecimal, if_pos (Char.isDigit_iff_toNat.mp hc), ih hcs, Nat.ofDigitChars_cons]

theorem isDigit_of_mem_decimalText {n : Nat} {c : Char} (h : c ∈ decimalText n) : c.isDigit = true :=
  Nat.isDigit_of_mem_toDigits (by decide) (by decide) h

theorem parseDecimal_decimalText (n : Nat) : parseDecimal 0 (decimalText n) = some n := by
  rw [parseDecimal_digits fun _ => isDigit_of_mem_decimalText, decimalText, Nat.ofDigitChars_ten_toDigits]

theorem isGroup_decimalText (n : Nat) : IsGroup (decimalText n) := by
  refine ⟨Nat.toDigits_ne_nil, fun c hc hsep => ?_⟩
  have hall : ∀ c ∈ separators, c.isDigit ≠ true := by simp
  exact hall c hsep (isDigit_of_mem_decimalText hc)

theorem parseIndex_decimalText {lo hi n : Nat} (h : lo ≤ n ∧ n ≤ hi) : parseIndex lo hi (decimalText n) = some n := by
  have hn := parseDecimal_decimalText n
  obtain ⟨c, cs, hcs⟩ := List.exists_cons_of_ne_nil (isGroup_decimalText n).1
  rw [hcs] at hn ⊢
  simp [parseIndex, hn, h]

/-! ### Statements, scripts, micro-operations -/

theorem parseLine_stmtText (st : Stmt) : parseLine (stmtText st) = some [st] := by
  cases st with
  | loadkey key =>
    have hg : groupsOfLine (stmtText (.loadkey key)) = [kwLoadkey, blockText key] :=
      groupsOfLine_operand (by simp [IsGroup, kwLoadkey]) (isGroup_blockText key)
    simp [parseLine, hg, parseBlock_blockText]
  | encrypt block =>
    have hg : groupsOfLine (stmtText (.encrypt block)) = [kwEncrypt, blockText block] :=
      groupsOfLine_operand (by simp [IsGroup, kwEncrypt]) (isGroup_blockText block)
    have hkw : kwEncrypt ≠ kwLoadkey := by decide
    simp [parseLine, hg, parseBlock_blockText, hkw]
  | _ => rfl

theorem newline_not_mem_stmtText (st : Stmt) : '\n' ∉ stmtText st := by
  cases st with
  | loadkey key => simp [stmtText, kwLoadkey, not_mem_group (isGroup_blockText key)]
  | encrypt block => simp [stmtText, kwEncrypt, not_mem_group (isGroup_blockText block)]
  | _ => decide

theorem linesFrom_scriptText_cons (st : Stmt) (rest : List Stmt) :
    linesFrom [] (scriptText (st :: rest)) = stmtText st :: linesFrom [] (scriptText rest) :=
  linesFrom_line (newline_not_mem_stmtText st) [] (scriptText rest)

theorem parseScript_scriptText (script : List Stmt) : parseScript (scriptText script) = some script := by
  induction script with
  | nil => rfl
  | cons st rest ih =>
    rw [parseScript] at ih ⊢
    simp [linesFrom_scriptText_cons, parseLines, parseLine_stmtText, ih]

theorem parseMicro_instrText {i : Instr} (hwf : i.wf = true) (hi : i.isCommand = false) :
    parseMicro (instrText i) = some i := by
  cases i with
  | nop => cases hi
  | loadkey key => cases hi
  | encrypt block => cases hi
  | reserved0b11 => cases hi
  | ark k =>
    have hk : k ≤ 10 := of_decide_eq_true hwf
    have hg : groupsOfLine (instrText (.ark k)) = [kwArk, decimalText k] :=
      groupsOfLine_operand (by simp [IsGroup, kwArk]) (isGroup_decimalText k)
    simp [parseMicro, hg, parseIndex_decimalText, hk]
  | kword w =>
    have hw : 4 ≤ w ∧ w ≤ 43 := of_decide_eq_true hwf
    have hg : groupsOfLine (instrText (.kword w)) = [kwKword, decimalText w] :=
      groupsOfLine_operand (by simp [IsGroup, kwKword]) (isGroup_decimalText w)
    have hkw : kwKword ≠ kwArk := by decide
    simp [parseMicro, hg, parseIndex_decimalText, hw, hkw]
  | _ => rfl

/-- Settles O8: a statement's line is cut at the blank into its keyword and its operand, and the digits of an operand
read back as its bytes or its number. -/
theorem assemblerTextRoundTrip : Obligations.AssemblerTextRoundTrip :=
  ⟨parseScript_scriptText, fun _ => parseMicro_instrText⟩

end Sys2Proof.Machine

-- The proofs of the family 40_tables_and_gf.md.

namespace Sys2Proof.Machine

open Sys2Proof

/-! ### Doubling in the field -/

theorem xtime_eq (b : Byte) : xtime b = if b.getLsbD 7 then b <<< 1 ^^^ 0x1B#8 else b <<< 1 := by
  have hshift : (b.setWidth 9 <<< 1).extractLsb' 0 8 = b <<< 1 := by simp [← BitVec.setWidth_eq_extractLsb']
  rw [xtime, hshift]

theorem polyMul_two (b : Byte) : polyMul b 0x02#8 = b.setWidth 15 <<< 1 := by simp [polyMul]

theorem polyMul_three (b : Byte) : polyMul b 0x03#8 = b.setWidth 15 ^^^ b.setWidth 15 <<< 1 := by simp [polyMul]

/-- A polynomial without terms above x^8 takes at most one subtraction of the modulus. -/
theorem polyMod_of_degree_le_eight {p : BitVec 15} (h : ∀ i, 9 ≤ i → p.getLsbD i = false) :
    polyMod p = if p.getLsbD 8 then p.setWidth 8 ^^^ 0x1B#8 else p.setWidth 8 := by
  have hfold : polyMod p = (if p.getLsbD 8 then p ^^^ 0x11B#15 else p).setWidth 8 := by
    simp [polyMod, h, -BitVec.getLsbD_eq_getElem]
  rw [hfold, apply_ite (BitVec.setWidth 8), BitVec.setWidth_xor]
  rfl

/-- The polynomial x·b + c, which covers both products (b·2 with c = 0, b·3 with c = b). -/
theorem polyMod_shift_xor (b c : Byte) : polyMod (c.setWidth 15 ^^^ b.setWidth 15 <<< 1) = xtime b ^^^ c := by
  have hhigh : ∀ i, 9 ≤ i → (c.setWidth 15 ^^^ b.setWidth 15 <<< 1).getLsbD i = false := by
    intro i hi
    simp [c.getLsbD_of_ge i (by omega), b.getLsbD_of_ge (i - 1) (by omega)]
  have htop : (c.setWidth 15 ^^^ b.setWidth 15 <<< 1).getLsbD 8 = b.getLsbD 7 := by simp
  have hlow : (c.setWidth 15 ^^^ b.setWidth 15 <<< 1).setWidth 8 = b <<< 1 ^^^ c := by
    simp [BitVec.xor_comm]
  rw [polyMod_of_degree_le_eight hhigh, htop, hlow, xtime_eq]
  split
  · ac_rfl
  · rfl

theorem xtime_eq_gfMul (b : Byte) : xtime b = gfMul b 0x02#8 := by
  simpa [gfMul, polyMul_two] using (polyMod_shift_xor b 0#8).symm

theorem mul3_eq_gfMul (b : Byte) : mul3 b = gfMul b 0x03#8 := by
  rw [gfMul, polyMul_three, polyMod_shift_xor, mul3]

theorem xtime_toNat_of_lt {b : Byte} (h : b.toNat < 0x80) : (xtime b).toNat = 2 * b.toNat := by
  have hbit : b.getLsbD 7 = false := Nat.testBit_lt_two_pow h
  rw [xtime_eq, hbit, if_neg Bool.false_ne_true]
  bv_omega

/-- 0x8D is the inverse of x in the field (40_tables_and_gf.md R102: `xtime(0x8D) = 0x01`). -/
theorem gfMul_xtime_0x8D : ∀ b : Byte, gfMul (xtime b) 0x8D#8 = b := by decide

theorem xtime_injective : Function.Injective xtime :=
  Function.LeftInverse.injective (g := (gfMul · 0x8D#8)) gfMul_xtime_0x8D

/-- Settles O39: the products by x and x+1 need at most one reduction, which is that of `xtime`; and doubling is undone
by the product with the inverse of x. -/
theorem xtimeIsFieldDoubling : Obligations.XtimeIsFieldDoubling :=
  ⟨fun b => ⟨xtime_eq_gfMul b, mul3_eq_gfMul b⟩, fun _ => xtime_toNat_of_lt, fun _ _ h => xtime_injective h⟩

/-! ### The S-box -/

/-- The affine map of R106 undone. -/
def affineInv (v : Byte) : Byte := v.rotateLeft 1 ^^^ v.rotateLeft 3 ^^^ v.rotateLeft 6 ^^^ 0x05#8

theorem affine_affineInv : ∀ v : Byte, affine (affineInv v) = v := by decide

/-- The inverse in the field as `SBOX` holds it: the table's byte with the affine map undone. -/
def fieldInv (a : Byte) : Byte := affineInv (sbox a)

theorem sbox_eq_affine_fieldInv (a : Byte) : sbox a = affine (fieldInv a) := (affine_affineInv (sbox a)).symm

theorem gfMul_fieldInv : ∀ a : Byte, a ≠ 0#8 → gfMul a (fieldInv a) = 0x01#8 := by decide

theorem fieldInv_fieldInv : ∀ a : Byte, fieldInv (fieldInv a) = a := by decide

theorem sbox_injective : Function.Injective sbox := fun _ _ h =>
  Function.Involutive.injective fieldInv_fieldInv (congrArg affineInv h)

theorem sbox_surjective : Function.Surjective sbox := Finite.surjective_of_injective sbox_injective

theorem sbox_ne_self_ne_complement : ∀ a : Byte, sbox a ≠ a ∧ sbox a ≠ a ^^^ 0xFF#8 := by decide

/-- Settles O40: `SBOX` with the affine map undone is an involution, so `SBOX` is injective, and onto as the bytes are
finite. -/
theorem sboxIsPermutation : Obligations.SboxIsPermutation :=
  ⟨fun _ _ h => sbox_injective h, sbox_surjective, sbox_ne_self_ne_complement⟩

/-- Settles O41: the inverse is `SBOX` with the affine map undone, checked against the product of the field. -/
theorem sboxIsAffineOfInverse : Obligations.SboxIsAffineOfInverse :=
  ⟨rfl, fun a ha => ⟨fieldInv a, gfMul_fieldInv a ha, sbox_eq_affine_fieldInv a⟩⟩

/-! ### The round constants -/

theorem rconTable_succ : ∀ j : Fin 9, rconTable[j.val + 1] = xtime rconTable[j.val] := by decide

/-- Settles O42: `RCON` read from index 1 on is its table, where each entry doubles the one before. -/
theorem rconIsIteratedDoubling : Obligations.RconIsIteratedDoubling := by
  refine ⟨rfl, fun i h => ?_⟩
  obtain ⟨j, rfl⟩ := Nat.exists_eq_add_of_le' h.1
  exact rconTable_succ ⟨j, by omega⟩

end Sys2Proof.Machine

-- The proofs of the family 41_key_scheduler.md.

namespace Sys2Proof.Machine

open Sys2Proof

/-! ### The key copy and the word step, byte by byte -/

theorem exec_kcopy (s : State) : exec .kcopy s = .next (s.withEK (copyKey s.EK s.IBUF)) := rfl

/-- Settles O36: the bytes of `EK` after the key copy. -/
theorem kcopyResult : Obligations.KcopyResult := fun s =>
  ⟨copyKey s.EK s.IBUF, exec_kcopy s,
    fun i => (read_copyKey s.EK s.IBUF i.val).trans (dif_pos i.isLt),
    fun a ha => (read_copyKey s.EK s.IBUF a).trans (dif_neg (by omega))⟩

/-- Byte `j` of the core transform: the byte after it, in the word's cyclic order, substituted; the round constant
reaches byte 0 only (41_key_scheduler.md R123). -/
theorem coreTransform_get (t : Word) (w : Nat) (hw : 4 ≤ w ∧ w ≤ 43) (j : Fin 4) :
    (coreTransform t w hw)[j] =
      sbox t[(j.val + 1) % 4] ^^^ (if j.val = 0 then rcon (w / 4) ⟨by omega, by omega⟩ else 0#8) := by
  match j with
  | 0 => rfl
  | 1 => exact BitVec.xor_zero.symm
  | 2 => exact BitVec.xor_zero.symm
  | 3 => exact BitVec.xor_zero.symm

theorem nextWord_get_of_mod_ne (E : Memory) (w : Nat) (hw : 4 ≤ w ∧ w ≤ 43) (hmod : w % 4 ≠ 0) (j : Fin 4) :
    (nextWord E w hw)[j] = Memory.read E (4 * (w - 4) + j.val) ^^^ Memory.read E (4 * (w - 1) + j.val) := by
  simp [nextWord, hmod]

theorem nextWord_get_of_mod_eq (E : Memory) (w : Nat) (hw : 4 ≤ w ∧ w ≤ 43) (hmod : w % 4 = 0) (j : Fin 4) :
    (nextWord E w hw)[j] =
      Memory.read E (4 * (w - 4) + j.val) ^^^ sbox (Memory.read E (4 * (w - 1) + (j.val + 1) % 4)) ^^^
        (if j.val = 0 then rcon (w / 4) ⟨by omega, by omega⟩ else 0#8) := by
  have hcore := coreTransform_get (readWord E ⟨w - 1, by omega⟩) w hw j
  simp only [Fin.getElem_fin, readWord_get] at hcore
  simp [nextWord, hmod, hcore, BitVec.xor_assoc]

/-- The word a word step has written. -/
theorem read_expandWord_same (E : Memory) (w : Nat) (hw : 4 ≤ w ∧ w ≤ 43) (j : Fin 4) :
    Memory.read (expandWord E w hw) (4 * w + j.val) = (nextWord E w hw)[j] := by
  rw [read_expandWord, dif_pos ⟨by omega, by omega⟩]
  simp

/-- Settles O37: the bytes of the new word in both forms, and the frame of the write. -/
theorem kwordResult : Obligations.KwordResult := fun w s h =>
  ⟨expandWord s.EK w h, exec_kword w s h,
    fun hmod j => (read_expandWord_same s.EK w h j).trans (nextWord_get_of_mod_ne s.EK w h hmod j),
    fun hmod j => (read_expandWord_same s.EK w h j).trans (nextWord_get_of_mod_eq s.EK w h hmod j),
    fun a ha => (read_expandWord s.EK w h a).trans (dif_neg (by omega))⟩

/-! ### The expansion -/

/-- The finished schedule obeys the recurrence: a word step on the schedule itself writes the word that stands there
(41_key_scheduler.md R122, R125). -/
theorem readWord_expand (key : Block) (w : Nat) (hw : 4 ≤ w ∧ w ≤ 43) :
    readWord (expand key) ⟨w, by omega⟩ = nextWord (expand key) w hw := by
  have hstep : sameWords (w + 1) (expandWord (expand key) w hw) (expand key) := sameWords_expandWord hw fun _ _ => rfl
  apply Vector.ext
  intro j hj
  calc (readWord (expand key) ⟨w, by omega⟩)[j]
    _ = Memory.read (expand key) (4 * w + j) := readWord_get ..
    _ = Memory.read (expandWord (expand key) w hw) (4 * w + j) := (hstep _ (by omega)).symm
    _ = (nextWord (expand key) w hw)[j] := read_expandWord_same (expand key) w hw ⟨j, hj⟩

theorem schedule0_expand (key : Block) : schedule0 (expand key) = key := schedule0_of_sameWords fun _ _ => rfl

theorem expand_injective : Function.Injective expand := Function.LeftInverse.injective schedule0_expand

/-- Settles O48: the key in the first 16 bytes, the recurrence, and the key read back from the schedule. -/
theorem expandRecurrence : Obligations.ExpandRecurrence :=
  ⟨fun key i => read_expand_key key i.val i.isLt, readWord_expand, fun _ _ h => expand_injective h⟩

/-- From any content of `EK` each step of the expansion makes one word more that of `Expand(K)`. -/
theorem sameWords_expandUpTo (E : Memory) (key : Block) (n : Nat) (hn : n ≤ 40) :
    sameWords (n + 4) (expandUpTo E key n hn) (expand key) := by
  induction n with
  | zero => exact sameWords_copyKey E key
  | succ n ih =>
    have hstep := sameWords_expandWord (w := n + 4) ⟨by omega, by omega⟩ (ih (by omega))
    rwa [Nat.add_right_comm] at hstep

theorem expand_wf (key : Block) : Memory.wf (expand key) := expandUpTo_wf reset_memory_wf key 40 _

/-- Settles O49: after 40 word steps all 44 words are those of `Expand(K)`, and canonical forms with the same bytes are
equal. -/
theorem expandDependsOnKeyOnly : Obligations.ExpandDependsOnKeyOnly := by
  intro E key
  have hwords : sameWords 44 (expandUpTo E key 40 (Nat.le_refl 40)) (expand key) := sameWords_expandUpTo E key 40 _
  exact ⟨hwords, fun hE => Memory.ext_of_wf (expandUpTo_wf hE key 40 _) (expand_wf key) hwords⟩

/-! ### The micro-programs -/

theorem krom_decodes : krom.map decodeUop = pseudoExpand.map some := by decide

theorem crom_decodes : crom.map decodeUop = pseudoCipher.map some := by decide

/-- Words that decode to a program are its encoding. -/
theorem map_uop_of_map_decodeUop {rom : List (BitVec 8)} {prog : List Instr}
    (h : rom.map decodeUop = prog.map some) : rom.map Code.uop = prog.map encode := by
  induction rom generalizing prog with
  | nil => rw [List.map_eq_nil_iff.mp h.symm]; rfl
  | cons u rom ih =>
    cases prog with
    | nil => cases h
    | cons i prog =>
      obtain ⟨hi, hrest⟩ := List.cons.inj h
      rw [List.map_cons, List.map_cons, ih hrest, (encode_of_decodeUop hi).1]

theorem cromInstr_round : ∀ r : Fin 10, 1 ≤ r.val →
    cromInstr (4 * r.val - 2) = .sub ∧ cromInstr (4 * r.val - 1) = .shr ∧
    cromInstr (4 * r.val) = .mix ∧ cromInstr (4 * r.val + 1) = .ark r.val := by decide

theorem krom_bind_decodeUop {n : Nat} (h1 : 1 ≤ n) (h : n ≤ 40) : (krom[n]?).bind decodeUop = some (.kword (n + 3)) := by
  have hfetch := Option.bind_eq_some_iff.mpr (krom_fetch n h)
  rwa [if_neg (by omega)] at hfetch

theorem crom_bind_decodeUop {n : Nat} (h : n ≤ 41) : (crom[n]?).bind decodeUop = some (cromInstr n) :=
  Option.bind_eq_some_iff.mpr (crom_fetch n h)

/-- Settles O5: both ROMs decode to the pseudo-programs, so their words are the encodings; the places of the key words
and of each round's four words are those of the fetch. -/
theorem romsHoldThePseudoPrograms : Obligations.RomsHoldThePseudoPrograms := by
  refine ⟨krom_decodes, map_uop_of_map_decodeUop krom_decodes, rfl,
    crom_decodes, map_uop_of_map_decodeUop crom_decodes, rfl,
    fun i h1 => krom_bind_decodeUop h1 (by omega), fun r h1 => ?_⟩
  obtain ⟨hsub, hshr, hmix, hark⟩ := cromInstr_round r h1
  rw [← hsub, ← hshr, ← hmix, ← hark]
  exact ⟨crom_bind_decodeUop (by omega), crom_bind_decodeUop (by omega), crom_bind_decodeUop (by omega),
    crom_bind_decodeUop (by omega)⟩

/-! ### A busy step -/

theorem advanceKeyexp_eq (s : State) : advanceKeyexp s =
    if s.upc = 40#6 then { s with keyValid := true, phase := .idle, upc := 0#6 } else { s with upc := s.upc + 1#6 } := rfl

theorem advanceCipher_eq (s : State) : advanceCipher s =
    if s.upc = 41#6 then { s with doutValid := true, phase := .idle, upc := 0#6 } else { s with upc := s.upc + 1#6 } := rfl

theorem runMicro_exec_next {rom : List (BitVec 8)} {after : State → State} {s t : State} {u : BitVec 8} {i : Instr}
    (hu : rom[s.upc.toNat]? = some u) (hd : decodeUop u = some i) (he : exec i s = .next t) :
    runMicro rom after s = .next (after t) := by
  rw [runMicro_fetched hu hd, he, andThen]

/-- Settles O10: the fetched word is executed, and as a micro-operation leaves `upc` alone, the program counter moves
from where the step began. -/
theorem stepRunsFetchedMicroOperation : Obligations.StepRunsFetchedMicroOperation := by
  intro s t u i hr hd he
  obtain ⟨-, (hupc : t.upc = s.upc), -⟩ := exec_micro_frame (decodeUop_micro hd) he
  refine ⟨fun hp hu => ?_, fun hp hu => ?_⟩
  · rw [step, stepOn_keyexp _ (consumePort s) hr hp, runMicro_exec_next (s := consumePort s) hu hd he,
      advanceKeyexp_eq, hupc]
  · rw [step, stepOn_cipher _ (consumePort s) hr hp, runMicro_exec_next (s := consumePort s) hu hd he,
      advanceCipher_eq, hupc]

end Sys2Proof.Machine

-- The proofs of the family 42_block_adapter.md.

namespace Sys2Proof.Machine

open Sys2Proof

/-! ### The block adapter -/

/-- `LDS` answers in every state (42_block_adapter.md R143). -/
theorem exec_lds (s : State) : exec .lds s = .next (s.withS (toState s.IBUF)) := rfl

/-- `STS` answers in every state (42_block_adapter.md R144). -/
theorem exec_sts (s : State) : exec .sts s = .next (s.withDOUT (fromState s.S)) := rfl

/-- The byte of the block at the place `(r, c)` (42_block_adapter.md R141). -/
theorem fromState_get_column_major (T : StateMatrix) (r c : Nat) (hr : r < 4) (hc : c < 4) :
    (fromState T)[r + 4 * c] = T[r][c] := by
  have hrow : (r + 4 * c) % 4 = r := by omega
  have hcol : (r + 4 * c) / 4 = c := by omega
  simp only [fromState_get, hrow, hcol]

/-- Byte `i` goes to row `i mod 4` and column `i div 4`, and `i = i mod 4 + 4 (i div 4)` (42_block_adapter.md R142). -/
theorem fromState_toState (b : Block) : fromState (toState b) = b := by
  apply Vector.ext
  intro i hi
  have hplace : i % 4 + 4 * (i / 4) = i := Nat.mod_add_div i 4
  simp only [fromState_get, toState_get, hplace]

theorem toState_fromState (T : StateMatrix) : toState (fromState T) = T :=
  matrix_ext fun r c hr hc => (toState_get _ r c hr hc).trans (fromState_get_column_major T r c hr hc)

/-- Round key `k` is a block of `EK` in the layout of the state matrix (43_state_transform.md R155). -/
theorem roundKey_eq_toState (E : Memory) (k : Fin 11) :
    roundKey E k = toState (Vector.ofFn fun i : Fin 16 => Memory.read E (16 * k.val + i.val)) := by
  refine matrix_ext fun r c hr hc => ?_
  rw [roundKey_get, toState_get, Vector.getElem_ofFn, Nat.add_assoc]

/-- Settles O30: the matrix is that of `to_state`, byte by byte. -/
theorem ldsResult : Obligations.LdsResult := fun s =>
  ⟨toState s.IBUF, exec_lds s, fun r c => toState_get s.IBUF r.val c.val r.isLt c.isLt⟩

/-- Settles O31: the block is that of `from_state`, read at the place of a row and a column. -/
theorem stsResult : Obligations.StsResult := fun s =>
  ⟨fromState s.S, exec_sts s, fun r c => fromState_get_column_major s.S r.val c.val r.isLt c.isLt⟩

/-- Settles O43: the numbering of the 16 places by row and column is undone by remainder and quotient. -/
theorem blockAdapterInvertible : Obligations.BlockAdapterInvertible :=
  ⟨fromState_toState, toState_fromState, roundKey_eq_toState⟩

end Sys2Proof.Machine

-- The proofs of the family 43_state_transform.md.

namespace Sys2Proof.Machine

open Sys2Proof

/-! ### MixColumns -/

theorem gfMul_one (b : Byte) : gfMul b 0x01#8 = b := by
  have hpoly : polyMul b 0x01#8 = b.setWidth 15 ^^^ (0#8).setWidth 15 <<< 1 := by simp [polyMul]
  rw [gfMul, hpoly, polyMod_shift_xor]
  exact BitVec.zero_xor

theorem xtime_eq_xor_ite (b : Byte) : xtime b = b <<< 1 ^^^ if b.getLsbD 7 then 0x1B#8 else 0#8 := by
  rw [xtime_eq]
  split
  · rfl
  · exact BitVec.xor_zero.symm

/-- The shift is linear, and so is the reduction by the high bit. -/
theorem xtime_xor (a b : Byte) : xtime (a ^^^ b) = xtime a ^^^ xtime b := by
  have hreduce : ∀ x y : Bool, (if x ^^ y then 0x1B#8 else 0#8) =
      (if x then 0x1B#8 else 0#8) ^^^ if y then 0x1B#8 else 0#8 := by decide
  simp only [xtime_eq_xor_ite, BitVec.shiftLeft_xor_distrib, BitVec.getLsbD_xor, hreduce]
  ac_rfl

theorem mul3_xor (a b : Byte) : mul3 (a ^^^ b) = mul3 a ^^^ mul3 b := by
  simp only [mul3, xtime_xor]
  ac_rfl

/-- The four rows of R153 are one formula, its indices taken mod 4. -/
theorem mixcol_get (a : Word) (r : Nat) (hr : r < 4) :
    (mixcol a)[r] = xtime a[r] ^^^ mul3 a[(r + 1) % 4] ^^^ a[(r + 2) % 4] ^^^ a[(r + 3) % 4] := by
  match r, hr with
  | 0, _ => rfl
  | 1, _ => simp; ac_rfl
  | 2, _ => simp; ac_rfl
  | 3, _ => simp; ac_rfl

/-- The matrix has 02 on the diagonal, 03 to the right of it, cyclically, and 01 elsewhere (43_state_transform.md R152). -/
theorem mixcol_get_eq_gfMul (a : Word) (i : Fin 4) :
    (mixcol a)[i] = gfMul a[0] mixMatrix[i][0] ^^^ gfMul a[1] mixMatrix[i][1] ^^^ gfMul a[2] mixMatrix[i][2] ^^^
      gfMul a[3] mixMatrix[i][3] := by
  match i with
  | 0 => simp [mixMatrix, gfMul_one, xtime_eq_gfMul, mul3_eq_gfMul]
  | 1 => simp [mixMatrix, gfMul_one, xtime_eq_gfMul, mul3_eq_gfMul]
  | 2 => simp [mixMatrix, gfMul_one, xtime_eq_gfMul, mul3_eq_gfMul]
  | 3 => simp [mixMatrix, gfMul_one, xtime_eq_gfMul, mul3_eq_gfMul]

theorem mixcol_xorWord (a b : Word) : mixcol (xorWord a b) = xorWord (mixcol a) (mixcol b) := by
  apply Vector.ext
  intro r hr
  simp only [xorWord_get, mixcol_get, xtime_xor, mul3_xor]
  ac_rfl

/-- Settles O44: row by row, with the products by 01, 02 and 03 those of the field; and linear as doubling is. -/
theorem mixcolIsFieldMatrixProduct : Obligations.MixcolIsFieldMatrixProduct :=
  ⟨mixcol_get_eq_gfMul, mixcol_xorWord⟩

/-! ### SubBytes -/

/-- The inverse of `SBOX`: the affine map undone, then the inverse in the field (43_state_transform.md R157 (a)). -/
def sboxInv (v : Byte) : Byte := fieldInv (affineInv v)

theorem sbox_sboxInv (v : Byte) : sbox (sboxInv v) = v := by
  rw [sbox_eq_affine_fieldInv, sboxInv, fieldInv_fieldInv, affine_affineInv]

/-- `sboxInv` on every byte of a state. -/
def subBytesInv (Y : StateMatrix) : StateMatrix :=
  Vector.ofFn fun r : Fin 4 => Vector.ofFn fun c : Fin 4 => sboxInv Y[r][c]

theorem subBytes_subBytesInv (Y : StateMatrix) : subBytes (subBytesInv Y) = Y :=
  matrix_ext fun r c hr hc => by simp [subBytesInv, sbox_sboxInv]

theorem subBytes_injective : Function.Injective subBytes := by
  intro X Y h
  refine matrix_ext fun r c hr hc => sbox_injective ?_
  calc sbox X[r][c]
    _ = (subBytes X)[r][c] := (subBytes_get X r c hr hc).symm
    _ = (subBytes Y)[r][c] := by rw [h]
    _ = sbox Y[r][c] := subBytes_get Y r c hr hc

/-! ### ShiftRows -/

theorem shiftRows_subBytes (X : StateMatrix) : shiftRows (subBytes X) = subBytes (shiftRows X) :=
  matrix_ext fun r c hr hc => by simp

/-- `n` rotations of row `r` by `r` are one by `n * r`. -/
theorem iterate_shiftRows_get (X : StateMatrix) (n r c : Nat) (hr : r < 4) (hc : c < 4) :
    (shiftRows^[n] X)[r][c] = X[r][(c + n * r) % 4] := by
  induction n generalizing c with
  | zero => simp [Nat.mod_eq_of_lt hc]
  | succ n ih =>
    have hcol : ((c + r) % 4 + n * r) % 4 = (c + (n + 1) * r) % 4 := by
      rw [Nat.mod_add_mod, Nat.succ_mul, Nat.add_assoc, Nat.add_comm r]
    simp only [Function.iterate_succ_apply', shiftRows_get, ih _ (Nat.mod_lt _ (by decide)), hcol]

theorem iterate_shiftRows_four (X : StateMatrix) : shiftRows^[4] X = X := by
  refine matrix_ext fun r c hr hc => ?_
  have hcol : (c + 4 * r) % 4 = c := by omega
  simp only [iterate_shiftRows_get, hcol]

/-- In block bytes the rotation moves byte `i` by `4 (i mod 4)` places (43_state_transform.md R151). -/
theorem fromState_shiftRows_get (X : StateMatrix) (i : Nat) (hi : i < 16) :
    (fromState (shiftRows X))[i] = (fromState X)[(i + 4 * (i % 4)) % 16] := by
  have hrow : (i + 4 * (i % 4)) % 16 % 4 = i % 4 := by omega
  have hcol : (i + 4 * (i % 4)) % 16 / 4 = (i / 4 + i % 4) % 4 := by omega
  simp only [fromState_get, shiftRows_get, hrow, hcol]

/-- The state whose only nonzero byte stands in row 1, column 0. -/
def unitRowOne : StateMatrix := Vector.ofFn fun r => Vector.ofFn fun c => if r = 1 ∧ c = 0 then 0x01#8 else 0x00#8

theorem shiftRows_shiftRows_unitRowOne : shiftRows (shiftRows unitRowOne) ≠ unitRowOne := by decide

/-- Settles O45: row `r` is rotated by `4r` in all; two rotations move row 1 by two places. -/
theorem shiftRowsFourTimes : Obligations.ShiftRowsFourTimes :=
  ⟨iterate_shiftRows_four, unitRowOne, shiftRows_shiftRows_unitRowOne⟩

/-! ### AddRoundKey -/

theorem addRoundKey_addRoundKey (E : Memory) (X : StateMatrix) (k : Fin 11) :
    addRoundKey E (addRoundKey E X k) k = X :=
  matrix_ext fun r c hr hc => by simp

/-- In block bytes the round-key bytes stand in order (43_state_transform.md R154). -/
theorem fromState_addRoundKey_get (E : Memory) (X : StateMatrix) (k : Fin 11) (i : Nat) (hi : i < 16) :
    (fromState (addRoundKey E X k))[i] = (fromState X)[i] ^^^ Memory.read E (16 * k.val + i) := by
  rw [fromState_get, addRoundKey_get, fromState_get, Nat.add_assoc, Nat.mod_add_div]

/-- Byte `r` of word `4k + c` is at `4 (4k + c) + r`, the place of row `r` and column `c` in block `k`. -/
theorem roundKey_get_eq_readWord (E : Memory) (k : Fin 11) (c r : Fin 4) :
    (roundKey E k)[r][c] = (readWord E ⟨4 * k.val + c.val, by omega⟩)[r] := by
  have haddr : 16 * k.val + r.val + 4 * c.val = 4 * (4 * k.val + c.val) + r.val := by omega
  simp only [Fin.getElem_fin, roundKey_get, readWord_get, haddr]

/-- Settles O47: the three readings of byte `16k + r + 4c` of `EK`. -/
theorem roundKeyColumnsAreWords : Obligations.RoundKeyColumnsAreWords :=
  ⟨fun E k r c => roundKey_get E k r.val c.val r.isLt c.isLt, roundKey_eq_toState, roundKey_get_eq_readWord⟩

/-- Settles O46: `SUB` is a bijection as `SBOX` is; the same byte XORed twice; moving bytes and replacing each of them
commute. -/
theorem transformLaws : Obligations.TransformLaws :=
  ⟨fun _ _ h => subBytes_injective h, fun Y => ⟨subBytesInv Y, subBytes_subBytesInv Y⟩, addRoundKey_addRoundKey,
    shiftRows_subBytes⟩

/-! ### The micro-operations -/

theorem exec_sub (s : State) : exec .sub s = .next (s.withS (subBytes s.S)) := rfl

theorem exec_shr (s : State) : exec .shr s = .next (s.withS (shiftRows s.S)) := rfl

theorem exec_mix (s : State) : exec .mix s = .next (s.withS (mixColumns s.S)) := rfl

/-- Settles O32: the matrix is that of SubBytes, byte by byte. -/
theorem subResult : Obligations.SubResult := fun s =>
  ⟨subBytes s.S, exec_sub s, fun r c => subBytes_get s.S r.val c.val r.isLt c.isLt⟩

/-- Settles O33: the matrix is that of ShiftRows, by row and column and by block byte. -/
theorem shrResult : Obligations.ShrResult := fun s =>
  ⟨shiftRows s.S, exec_shr s, fun r c => shiftRows_get s.S r.val c.val r.isLt c.isLt,
    fun i => fromState_shiftRows_get s.S i.val i.isLt⟩

/-- Settles O34: column `c` of the result is `mixcol` of the old column, by the cyclic formula of its rows. -/
theorem mixResult : Obligations.MixResult := by
  refine fun s => ⟨mixColumns s.S, exec_mix s, fun r c => ?_⟩
  simp only [Fin.getElem_fin, mixColumns_get, mixcol_get, column_get]

/-- Settles O35: the matrix is that of AddRoundKey, by row and column and by block byte. -/
theorem arkResult : Obligations.ArkResult := fun k s hk =>
  ⟨addRoundKey s.EK s.S ⟨k, by omega⟩, exec_ark k s (by omega),
    fun r c => addRoundKey_get s.EK s.S _ r.val c.val r.isLt c.isLt,
    fun i => fromState_addRoundKey_get s.EK s.S _ i.val i.isLt⟩

end Sys2Proof.Machine

-- The proofs of the family 44_round_driver.md.

namespace Sys2Proof.Machine

open Sys2Proof

/-! ### The states of the round driver -/

theorem driverState_eq_round_iff (r n : Nat) :
    driverState n = some (.round r) ↔ (1 ≤ r ∧ r ≤ 9 ∧ 4 * r - 2 ≤ n ∧ n ≤ 4 * r + 1) := by
  unfold driverState
  repeat' split
  all_goals simp only [Option.some.injEq, DriverState.round.injEq, reduceCtorEq, false_iff]
  all_goals omega

theorem driverState_eq_finalRound_iff (n : Nat) : driverState n = some .finalRound ↔ (38 ≤ n ∧ n ≤ 40) := by
  unfold driverState
  repeat' split
  all_goals simp only [Option.some.injEq, reduceCtorEq, false_iff, true_iff]
  all_goals omega

theorem driverState_eq_none_iff (n : Nat) : driverState n = none ↔ 42 ≤ n := by
  unfold driverState
  repeat' split
  all_goals simp only [reduceCtorEq, false_iff, true_iff]
  all_goals omega

/-- Settles O6: the ranges of the table, each from the branches of `driverState`. -/
theorem driverStatesAreUpcRanges : Obligations.DriverStatesAreUpcRanges :=
  ⟨rfl, rfl, rfl, driverState_eq_round_iff, driverState_eq_finalRound_iff, driverState_eq_none_iff⟩

/-! ### The moves of the program counter -/

/-- Settles O16: the cases of a step; in `IDLE` and `FAULT` the control invariant gives `upc = 0`. -/
theorem programCounterMoves : Obligations.ProgramCounterMoves := by
  intro s t hs h
  cases stepCase_of_step h with
  | reset hr => exact .inl ⟨hr, rfl, rfl⟩
  | faultHeld hr hp => exact .inr ⟨hr, by simp [hp, hs.faultUpc hp]⟩
  | quiet hr hp hv => exact .inr ⟨hr, by simp [hp, hs.idleUpc hp, hv]⟩
  | nop hr hp hv ho => exact .inr ⟨hr, by simp [hp, hs.idleUpc hp, ho]⟩
  | loadkey hr hp hv ho => exact .inr ⟨hr, by simp [hp, hv, ho]⟩
  | encrypt hr hp hv ho hk => exact .inr ⟨hr, by simp [hp, hv, ho, hk]⟩
  | noKey hr hp hv ho hk => exact .inr ⟨hr, by simp [hp, hv, ho, hk]⟩
  | illegalCommand hr hp hv ho => exact .inr ⟨hr, by simp [hp, hv, ho]⟩
  | keyCopy hr hp hu => exact .inr ⟨hr, by simp [hp, hu]⟩
  | keyWord hr hp hu => exact .inr ⟨hr, by simp [hp, hu.2, toNat_upc_succ (show s.upc.toNat < 41 by omega)]⟩
  | keyLast hr hp hu => exact .inr ⟨hr, by simp [hp, hu]⟩
  | cipherRound hr hp hu X hX => exact .inr ⟨hr, by simp [hp, hu, toNat_upc_succ hu]⟩
  | cipherLast hr hp hu => exact .inr ⟨hr, by simp [hp, hu]⟩

/-! ### The control elements along a run -/

/-- A run moves the control elements as the control step does, and by nothing else (44_round_driver.md R170). -/
theorem control_of_run {s : State} (hs : ControlInv s) (n : Nat) :
    ∃ t, runSteps n s = .next t ∧ t.control = Control.step^[n] s.control := by
  induction n generalizing s with
  | zero => exact ⟨s, rfl, rfl⟩
  | succ n ih =>
    obtain ⟨s₁, hs₁⟩ := step_completes hs
    obtain ⟨t, ht, hc⟩ := ih (controlInv_step hs hs₁)
    exact ⟨t, (runSteps_succ n hs₁).trans ht, by rw [hc, control_of_step hs₁, Function.iterate_succ_apply]⟩

/-- Settles O57: both runs iterate the control step from the same control elements. -/
theorem controlIndependentOfData : Obligations.ControlIndependentOfData := by
  intro s t n hs ht hp hu hk hv he ho
  have hc : s.control = t.control := (Control.mk.injEq ..).mpr ⟨hp, hu, hk, hv, he, ho⟩
  obtain ⟨s', hs', hcs⟩ := control_of_run hs n
  obtain ⟨t', ht', hct⟩ := control_of_run ht n
  have hc' : s'.control = t'.control := by rw [hcs, hct, hc]
  obtain ⟨hp', hu', hk', hv', he', -⟩ := (Control.mk.injEq ..).mp hc'
  exact ⟨s', t', hs', ht', hp', hu', hk', hv', he'⟩

/-! ### Every part of the cipher is injective -/

theorem xor_xor_cancel_left (x y : Byte) : x ^^^ (x ^^^ y) = y := by
  rw [← BitVec.xor_assoc, BitVec.xor_self, BitVec.zero_xor]

theorem byte_xor_left_comm (x y z : Byte) : x ^^^ (y ^^^ z) = y ^^^ (x ^^^ z) := by ac_rfl

/-- A row of `mixcol`, from its diagonal byte on (43_state_transform.md R153). -/
def mixRow (a b c d : Byte) : Byte := xtime a ^^^ mul3 b ^^^ c ^^^ d

theorem mixcol_get_eq_mixRow (a : Word) (r : Nat) (hr : r < 4) :
    (mixcol a)[r] = mixRow a[r] a[(r + 1) % 4] a[(r + 2) % 4] a[(r + 3) % 4] := mixcol_get a r hr

/-- The square of the matrix of R152 has 05 on the diagonal, 04 two places from it, and 00 elsewhere. -/
theorem mixRow_mixRow (a b c d : Byte) :
    mixRow (mixRow a b c d) (mixRow b c d a) (mixRow c d a b) (mixRow d a b c) =
      xtime (xtime a) ^^^ a ^^^ xtime (xtime c) := by
  simp only [mixRow, mul3, xtime_xor, BitVec.xor_assoc, BitVec.xor_comm, byte_xor_left_comm, xor_xor_cancel_left]

theorem mixcol_mixcol_get (a : Word) (r : Nat) (hr : r < 4) :
    (mixcol (mixcol a))[r] = xtime (xtime a[r]) ^^^ a[r] ^^^ xtime (xtime a[(r + 2) % 4]) := by
  match r, hr with
  | 0, _ | 1, _ | 2, _ | 3, _ => simp only [mixcol_get_eq_mixRow, Nat.reduceAdd, Nat.reduceMod, mixRow_mixRow]

/-- The matrix has order four. -/
theorem iterate_mixcol_four (a : Word) : mixcol^[4] a = a := by
  have hcancel : ∀ p q : Byte, xtime (xtime (xtime (xtime p) ^^^ p ^^^ xtime (xtime q))) ^^^
      (xtime (xtime p) ^^^ p ^^^ xtime (xtime q)) ^^^ xtime (xtime (xtime (xtime q) ^^^ q ^^^ xtime (xtime p))) = p := by
    intro p q
    simp only [xtime_xor, BitVec.xor_assoc, BitVec.xor_comm, byte_xor_left_comm, xor_xor_cancel_left, BitVec.xor_self,
      BitVec.xor_zero]
  apply Vector.ext
  intro r hr
  have hindex : ((r + 2) % 4 + 2) % 4 = r := by omega
  simp only [Function.iterate_succ_apply, Function.iterate_zero_apply, mixcol_mixcol_get, hindex, hcancel]

theorem mixcol_injective : Function.Injective mixcol :=
  Function.LeftInverse.injective (g := mixcol^[3]) iterate_mixcol_four

theorem shiftRows_injective : Function.Injective shiftRows :=
  Function.LeftInverse.injective (g := shiftRows^[3]) iterate_shiftRows_four

theorem mixColumns_injective : Function.Injective mixColumns := by
  intro X Y h
  have hcol : ∀ c : Fin 4, column X c = column Y c := by
    refine fun c => mixcol_injective (Vector.ext fun r hr => ?_)
    rw [← mixColumns_get X r c hr c.isLt, h, mixColumns_get]
  refine matrix_ext fun r c hr hc => ?_
  rw [← column_get X ⟨c, hc⟩ r hr, hcol, column_get]

theorem addRoundKey_injective (E : Memory) (k : Fin 11) : Function.Injective (addRoundKey E · k) :=
  Function.Involutive.injective (addRoundKey_addRoundKey E · k)

theorem fullRound_injective (E : Memory) (r : Fin 11) : Function.Injective (fullRound E · r) :=
  (addRoundKey_injective E r).comp (mixColumns_injective.comp (shiftRows_injective.comp subBytes_injective))

theorem finalRound_injective (E : Memory) : Function.Injective (finalRound E) :=
  (addRoundKey_injective E 10).comp (shiftRows_injective.comp subBytes_injective)

theorem rounds_injective (E : Memory) (rs : List (Fin 11)) : Function.Injective (rs.foldl (fullRound E)) := by
  induction rs with
  | nil => exact Function.injective_id
  | cons r rs ih => exact ih.comp (fullRound_injective E r)

theorem toState_injective : Function.Injective toState := Function.LeftInverse.injective fromState_toState

theorem fromState_injective : Function.Injective fromState := Function.LeftInverse.injective toState_fromState

theorem initRound_injective (E : Memory) : Function.Injective (initRound E) := addRoundKey_injective E 0

theorem cipher_injective (E : Memory) : Function.Injective (cipher E) := by
  intro b b' h
  have hfinal := finalRound_injective E (fromState_injective h)
  have hrounds := rounds_injective E _ hfinal
  exact toState_injective (initRound_injective E hrounds)

/-- Settles O50: every part of the cipher is undone, MixColumns and ShiftRows by three more of themselves. -/
theorem cipherInjective : Obligations.CipherInjective := fun E _ _ h => cipher_injective E h

/-! ### The known-answer vector -/

set_option maxRecDepth 20000 in
/-- Settles O51: the expansion and the cipher evaluated. -/
theorem knownAnswer : Obligations.KnownAnswer := by
  unfold Obligations.KnownAnswer
  decide

/-! ### CROM as a program -/

/-- What an instruction makes of the state matrix (42_block_adapter.md R143; 43_state_transform.md R150 to R154). -/
def stateAfter (E : Memory) (block : Block) (X : StateMatrix) : Instr → StateMatrix
  | .lds => toState block
  | .sub => subBytes X
  | .shr => shiftRows X
  | .mix => mixColumns X
  | .ark k => if h : k < 11 then addRoundKey E X ⟨k, h⟩ else X
  | _ => X

theorem exec_next_S {i : Instr} {s t : State} (h : exec i s = .next t) : t.S = stateAfter s.EK s.IBUF s.S i := by
  cases i with
  | encrypt block =>
    simp only [exec, execEncrypt] at h
    split at h <;> cases h <;> rfl
  | ark k =>
    simp only [exec, execArk] at h
    split at h <;> cases h
    next hk => simp only [stateAfter, dif_pos hk, State.withS_S]
  | kword w =>
    simp only [exec, execKword] at h
    split at h <;> cases h
    rfl
  | sts =>
    cases h
    exact State.withDOUT_S ..
  | _ => cases h; rfl

/-- The state matrix after the first `n` instructions of `CROM`. -/
def cromState (E : Memory) (block : Block) (X : StateMatrix) (n : Nat) : StateMatrix :=
  ((List.range n).map cromInstr).foldl (stateAfter E block) X

theorem cromState_succ (E : Memory) (block : Block) (X : StateMatrix) (n : Nat) :
    cromState E block X (n + 1) = stateAfter E block (cromState E block X n) (cromInstr n) := by
  simp [cromState, List.range_succ]

theorem cromInstrs_eq_pseudo : (List.range 41).map cromInstr =
    [.lds] ++ pseudoInit ++ (([1, 2, 3, 4, 5, 6, 7, 8, 9] : List (Fin 11)).map fun r => pseudoRound r.val).flatten ++
      pseudoFinal := by decide

/-- All instructions of `CROM` but the last compute `Cipher`, whatever the matrix held (44_round_driver.md R178, R179). -/
theorem cromState_all (E : Memory) (block : Block) (X : StateMatrix) :
    cromState E block X 41 = toState (cipher E block) := by
  have hinit : ∀ Y, pseudoInit.foldl (stateAfter E block) Y = initRound E Y := fun _ => rfl
  have hround : ∀ Y (r : Fin 11), (pseudoRound r.val).foldl (stateAfter E block) Y = fullRound E Y r := fun Y r => by
    simp [pseudoRound, stateAfter, fullRound]
  have hfinal : ∀ Y, pseudoFinal.foldl (stateAfter E block) Y = finalRound E Y := fun _ => rfl
  rw [cromState, cromInstrs_eq_pseudo, cipher, toState_fromState]
  simp only [List.foldl_append, List.foldl_flatten, List.foldl_map, List.foldl_cons, List.foldl_nil, stateAfter, hinit,
    hround, hfinal]

/-! ### Runs in phase CIPHER -/

theorem runSteps_step {n : Nat} {s t r : State} (h : runSteps n s = .next t) (hstep : step t = .next r) :
    runSteps (n + 1) s = .next r := by
  rw [runSteps_add 1 h, runSteps_succ 0 hstep, runSteps_zero]

theorem noReset_mono {m n : Nat} {s : State} (h : noReset n s) (hmn : m ≤ n) : noReset m s :=
  fun p hp => h p (List.take_subset_take_left _ hmn hp)

theorem noReset_samplePort {m n : Nat} {s : State} (h : noReset m s) (hn : n < m) :
    ((s.inputs.drop n).headD PortIn.quiet).rst = false := by
  rw [List.headD_eq_head?_getD, List.head?_drop]
  cases hp : s.inputs[n]? with
  | none => rfl
  | some p => exact h p (List.mem_of_getElem? ((List.getElem?_take_of_lt hn).trans hp))

/-- The step of `s` in phase `CIPHER` before the last index. -/
theorem step_cipher {s : State} (hr : (samplePort s).rst = false) (hp : s.phase = .cipher) (hu : s.upc.toNat < 41) :
    step s = .next { s with S := stateAfter s.EK s.IBUF s.S (cromInstr s.upc.toNat), upc := s.upc + 1#6,
                            inputs := s.inputs.tail } := by
  obtain ⟨u, hfetch, hdecode⟩ := crom_fetch s.upc.toNat hu.le
  obtain ⟨X, hexec⟩ := (exec_cromInstr s.upc.toNat hu.le).2 hu.ne (consumePort s)
  obtain rfl : X = _ := exec_next_S hexec
  have hstep := (stepRunsFetchedMicroOperation s _ u _ hr hdecode hexec).2 hp hfetch
  rwa [if_neg (upc_ne_of_lt (by omega) hu)] at hstep

theorem step_cipher_last {s : State} (hr : (samplePort s).rst = false) (hp : s.phase = .cipher) (hu : s.upc = 41#6) :
    step s = .next { s with DOUT := fromState s.S, doutValid := true, phase := .idle, upc := 0#6,
                            inputs := s.inputs.tail } := by
  have hexec : exec .sts (consumePort s) = .next { s with DOUT := fromState s.S, inputs := s.inputs.tail } :=
    exec_sts (consumePort s)
  have hstep := (stepRunsFetchedMicroOperation s _ 0x05#8 .sts hr rfl hexec).2 hp (by rw [hu]; rfl)
  rwa [if_pos hu] at hstep

/-- The state `n` steps after `s`, where `s` stands at the first index of `CROM`. -/
def cipherAfter (s : State) (n : Nat) : State :=
  { s with S := cromState s.EK s.IBUF s.S n, upc := BitVec.ofNat 6 n, inputs := s.inputs.drop n }

theorem runSteps_cipher {s : State} {n : Nat} (hp : s.phase = .cipher) (hu : s.upc = 0#6) (hn : n ≤ 41)
    (hr : noReset n s) : runSteps n s = .next (cipherAfter s n) := by
  induction n with
  | zero => simp [cipherAfter, cromState, ← hu]
  | succ n ih =>
    have hrun := ih (by omega) (noReset_mono hr (Nat.le_succ n))
    have hupc : (cipherAfter s n).upc.toNat = n := Nat.mod_eq_of_lt (by omega)
    have hstep := step_cipher (s := cipherAfter s n) (noReset_samplePort hr (Nat.lt_succ_self n)) hp (by omega)
    rw [runSteps_step hrun hstep, hupc]
    simp [cipherAfter, cromState_succ, BitVec.ofNat_add]

/-- Settles O53: 41 steps compute the matrix, and the last one stores it. -/
theorem cipherStepsComputeCipher : Obligations.CipherStepsComputeCipher := by
  intro s hp hu hr
  refine ⟨toState (cipher s.EK s.IBUF), ?_, rfl⟩
  have hrun := runSteps_cipher hp hu (Nat.le_refl 41) (noReset_mono hr (Nat.le_succ 41))
  have hlast := step_cipher_last (s := cipherAfter s 41) (noReset_samplePort hr (Nat.lt_succ_self 41)) hp rfl
  rw [runSteps_step hrun hlast]
  simp [cipherAfter, cromState_all, fromState_toState]

end Sys2Proof.Machine

-- The proofs of the family 45_host_commands.md.

namespace Sys2Proof.Machine

open Sys2Proof

/-! ### The acceptance of a command -/

theorem exec_loadkey (key : Block) (s : State) :
    exec (.loadkey key) s = .next { s with IBUF := key, keyValid := false, phase := .keyexp, upc := 0#6 } := rfl

theorem exec_encrypt_keyed (block : Block) {s : State} (hk : s.keyValid = true) :
    exec (.encrypt block) s = .next { s with IBUF := block, doutValid := false, phase := .cipher, upc := 0#6 } := by
  rw [exec, execEncrypt, if_neg (by simp [hk])]
  rfl

theorem exec_encrypt_noKey (block : Block) {s : State} (hk : s.keyValid = false) :
    exec (.encrypt block) s = .next { s with err := 0b01#2, phase := .fault, upc := 0#6 } := by
  rw [exec, execEncrypt, if_pos hk]
  rfl

/-- Settles O9: the port's two fields are those of the decoded number. -/
theorem stepRunsOfferedCommand : Obligations.StepRunsOfferedCommand := by
  intro s p rest i hin hr hv hp hd
  obtain rfl : decodeCommand p.cmdOp p.cmdData = i := by
    rwa [decode_command_append, Option.some.injEq] at hd
  rw [step_cons s p rest hin]
  exact stepOn_idle_command p (s.withInputs rest) hr hp hv

/-- Settles O25: opcode 0b00 decodes to `NOP` with any data, and `NOP` answers the state itself. -/
theorem nopChangesNothing : Obligations.NopChangesNothing := by
  refine ⟨fun _ => rfl, fun s p hr hv ho hp => ?_⟩
  rw [stepOn_idle_command p s hr hp hv, stepOn_idle_quiet { p with cmdValid := false } s hr hp rfl, ho]
  rfl

/-- Settles O26: the operand is the unpacked bus value. -/
theorem loadkeyAcceptance : Obligations.LoadkeyAcceptance :=
  ⟨exec_loadkey, fun data s => ⟨unpackBlock data, exec_loadkey _ s, fun i => getElem_unpackBlock data i.val i.isLt⟩⟩

/-- Settles O27: the operand is the unpacked bus value. -/
theorem encryptAcceptance : Obligations.EncryptAcceptance :=
  ⟨fun block _ hk => exec_encrypt_keyed block hk,
    fun data _ hk => ⟨unpackBlock data, exec_encrypt_keyed _ hk, fun i => getElem_unpackBlock data i.val i.isLt⟩⟩

/-- Settles O14: outside `IDLE` no case of the step reads the command port, and in `IDLE` only `cmd_valid` is read. -/
theorem commandPortIgnoredUnlessAccepted : Obligations.CommandPortIgnoredUnlessAccepted := by
  intro s p q hp hq h
  cases hs : s.phase with
  | fault => rw [stepOn_fault p s hp hs, stepOn_fault q s hq hs]
  | keyexp => rw [stepOn_keyexp p s hp hs, stepOn_keyexp q s hq hs]
  | cipher => rw [stepOn_cipher p s hp hs, stepOn_cipher q s hq hs]
  | idle =>
    obtain ⟨hpv, hqv⟩ := h.resolve_left (not_not_intro hs)
    rw [stepOn_idle_quiet p s hp hs hpv, stepOn_idle_quiet q s hq hs hqv]

/-- Settles O15: the control invariant keeps `upc` inside the ROM of its phase, so each case of the step answers. -/
theorem stepAlwaysCompletes : Obligations.StepAlwaysCompletes := fun _ => step_completes

/-! ### A whole LOADKEY -/

/-- `EK` after the first `n` instructions of `KROM` (41_key_scheduler.md R126). -/
def kromMemory (E : Memory) (key : Block) : (n : Nat) → n ≤ 41 → Memory
  | 0, _ => E
  | n + 1, h => expandUpTo E key n (Nat.le_of_succ_le_succ h)

/-- The instruction at index `n` of `KROM` takes the expansion one step further. -/
theorem exec_kromInstr {s : State} {E : Memory} {n : Nat} (hn : n ≤ 40)
    (hE : s.EK = kromMemory E s.IBUF n (Nat.le_succ_of_le hn)) :
    exec (if n = 0 then .kcopy else .kword (n + 3)) s =
      .next (s.withEK (kromMemory E s.IBUF (n + 1) (Nat.succ_le_succ hn))) := by
  cases n with
  | zero => rw [if_pos rfl, exec_kcopy, hE]; rfl
  | succ n => rw [if_neg (Nat.succ_ne_zero n), exec_kword _ s ⟨by omega, by omega⟩, hE]; rfl

/-- The state `n` steps after `s`, where `s` stands at the first index of `KROM`. -/
def keyexpAfter (s : State) (n : Nat) (hn : n ≤ 41) : State :=
  { s with EK := kromMemory s.EK s.IBUF n hn, upc := BitVec.ofNat 6 n, inputs := s.inputs.drop n }

theorem step_keyexpAfter {s : State} {n : Nat} (hp : s.phase = .keyexp) (hn : n ≤ 40) (hr : noReset (n + 1) s) :
    step (keyexpAfter s n (Nat.le_succ_of_le hn)) = .next
      (if n = 40 then { keyexpAfter s 41 (Nat.le_refl 41) with keyValid := true, phase := .idle, upc := 0#6 }
        else keyexpAfter s (n + 1) (Nat.succ_le_succ hn)) := by
  have hupc : (keyexpAfter s n (Nat.le_succ_of_le hn)).upc.toNat = n := Nat.mod_eq_of_lt (by omega)
  have hrst : (samplePort (keyexpAfter s n (Nat.le_succ_of_le hn))).rst = false :=
    noReset_samplePort hr (Nat.lt_succ_self n)
  obtain ⟨u, hfetch, hdecode⟩ := krom_fetch n hn
  have hexec := exec_kromInstr (s := consumePort (keyexpAfter s n (Nat.le_succ_of_le hn))) (E := s.EK) hn rfl
  have hstep := (stepRunsFetchedMicroOperation _ _ u _ hrst hdecode hexec).1 hp (by rw [hupc]; exact hfetch)
  have hiff : (keyexpAfter s n (Nat.le_succ_of_le hn)).upc = 40#6 ↔ n = 40 := by rw [upc_eq_iff (by omega), hupc]
  simp only [hiff] at hstep
  rw [hstep]
  by_cases h40 : n = 40
  · subst h40
    simp [keyexpAfter, State.withEK]
  · simp [h40, keyexpAfter, State.withEK, BitVec.ofNat_add]

theorem runSteps_keyexp {s : State} {n : Nat} (hp : s.phase = .keyexp) (hu : s.upc = 0#6) (hn : n ≤ 40)
    (hr : noReset n s) : runSteps n s = .next (keyexpAfter s n (Nat.le_succ_of_le hn)) := by
  induction n with
  | zero => simp [keyexpAfter, kromMemory, ← hu]
  | succ n ih =>
    have hstep := step_keyexpAfter hp (Nat.le_of_succ_le hn) hr
    rw [if_neg (by omega)] at hstep
    exact runSteps_step (ih (by omega) (noReset_mono hr (Nat.le_succ n))) hstep

/-- From the first index of `KROM` 41 steps expand the key in `IBUF` (41_key_scheduler.md R127). -/
theorem runSteps_keyexp_all {s : State} (hp : s.phase = .keyexp) (hu : s.upc = 0#6) (hr : noReset 41 s) :
    runSteps 41 s = .next { s with EK := expandUpTo s.EK s.IBUF 40 (Nat.le_refl 40), keyValid := true, phase := .idle,
                                   upc := 0#6, inputs := s.inputs.drop 41 } :=
  runSteps_step (runSteps_keyexp hp hu (Nat.le_refl 40) (noReset_mono hr (Nat.le_succ 40)))
    (step_keyexpAfter hp (Nat.le_refl 40) hr)

theorem noReset_tail {n : Nat} {s t : State} (h : noReset (n + 1) s) (ht : t.inputs = s.inputs.tail) : noReset n t := by
  intro p hp
  rw [ht] at hp
  cases hs : s.inputs with
  | nil => simp [hs] at hp
  | cons q rest => exact h p (by rw [hs, List.take_succ_cons]; exact List.mem_cons_of_mem q (by simpa [hs] using hp))

theorem step_idle_command {s : State} {op : BitVec 2} {data : BitVec 128} {n : Nat} (hp : s.phase = .idle)
    (hr : noReset (n + 1) s) (hv : (samplePort s).cmdValid = true) (ho : (samplePort s).cmdOp = op)
    (hd : (samplePort s).cmdData = data) : step s = exec (decodeCommand op data) (consumePort s) := by
  have hrst : (samplePort s).rst = false := noReset_samplePort hr (Nat.succ_pos n)
  rw [step, stepOn_idle_command _ (consumePort s) hrst hp hv, ho, hd]

/-- Settles O52: the acceptance of the key, then the 41 steps of `KROM`. -/
theorem loadkeyWholeCommand : Obligations.LoadkeyWholeCommand := by
  intro s data hp hr hv ho hd
  have haccept := (step_idle_command hp hr hv ho hd).trans (exec_loadkey (unpackBlock data) (consumePort s))
  have hr1 := noReset_tail (t := { consumePort s with IBUF := unpackBlock data, keyValid := false, phase := .keyexp,
                                                      upc := 0#6 }) hr rfl
  obtain ⟨hwords, hform⟩ := expandDependsOnKeyOnly s.EK (unpackBlock data)
  refine ⟨⟨_, hwords, hform, ?_⟩, fun n h1 hn => ?_⟩
  · rw [runSteps_succ 41 haccept, runSteps_keyexp_all rfl rfl hr1]
    simp
  · obtain ⟨m, rfl⟩ : ∃ m, n = m + 1 := ⟨n - 1, by omega⟩
    exact ⟨_, (runSteps_succ m haccept).trans
      (runSteps_keyexp rfl rfl (Nat.le_of_succ_le_succ hn) (noReset_mono hr1 (by omega))), rfl, rfl⟩

/-! ### A whole ENCRYPT -/

/-- `Cipher` reads the 44 words of the schedule only. -/
theorem cipher_congr {E F : Memory} (h : sameWords 44 E F) (block : Block) : cipher E block = cipher F block := by
  have hark : ∀ X k, addRoundKey E X k = addRoundKey F X k := fun X k =>
    addRoundKey_congr X k fun i hi => h _ (by omega)
  have hround : fullRound E = fullRound F := by
    funext X r
    exact hark _ r
  simp only [cipher, initRound, finalRound, hark, hround]

/-- From the first index of `CROM` 42 steps compute `Cipher` (44_round_driver.md R179). -/
theorem runSteps_cipher_all {s : State} (hp : s.phase = .cipher) (hu : s.upc = 0#6) (hr : noReset 42 s) :
    runSteps 42 s = .next { s with S := toState (cipher s.EK s.IBUF), DOUT := cipher s.EK s.IBUF, doutValid := true,
                                   phase := .idle, upc := 0#6, inputs := s.inputs.drop 42 } := by
  obtain ⟨X, hrun, rfl⟩ := cipherStepsComputeCipher s hp hu hr
  exact hrun

/-- Settles O54: the acceptance of the block, then the 42 steps of `CROM`. -/
theorem encryptWholeCommand : Obligations.EncryptWholeCommand := by
  intro s data hp hk hr hv ho hd
  have haccept := (step_idle_command hp hr hv ho hd).trans
    (exec_encrypt_keyed (unpackBlock data) (s := consumePort s) hk)
  have hr1 := noReset_tail (t := { consumePort s with IBUF := unpackBlock data, doutValid := false, phase := .cipher,
                                                      upc := 0#6 }) hr rfl
  refine ⟨⟨_, ?_, rfl, fun key hkey => ?_⟩, fun n h1 hn => ?_⟩
  · rw [runSteps_succ 42 haccept, runSteps_cipher_all rfl rfl hr1]
    simp
  · exact congrArg packBlock (cipher_congr hkey (unpackBlock data))
  · obtain ⟨m, rfl⟩ : ∃ m, n = m + 1 := ⟨n - 1, by omega⟩
    exact ⟨_, (runSteps_succ m haccept).trans
      (runSteps_cipher rfl rfl (Nat.le_of_succ_le_succ hn) (noReset_mono hr1 (by omega))), rfl, rfl⟩

/-! ### A step does not consult the coming port samples -/

theorem exec_withInputs (i : Instr) (s : State) (ps : List PortIn) :
    exec i (s.withInputs ps) = andThen (exec i s) (·.withInputs ps) := by
  cases i with
  | encrypt block =>
    cases hk : s.keyValid with
    | false => rw [exec_encrypt_noKey block hk, exec_encrypt_noKey (s := s.withInputs ps) block hk]; rfl
    | true => rw [exec_encrypt_keyed block hk, exec_encrypt_keyed (s := s.withInputs ps) block hk]; rfl
  | ark k => simp only [exec, execArk]; split <;> rfl
  | kword w => simp only [exec, execKword]; split <;> rfl
  | _ => rfl

theorem runMicro_withInputs {rom : List (BitVec 8)} {after : State → State} {ps : List PortIn}
    (hafter : ∀ t : State, after (t.withInputs ps) = (after t).withInputs ps) (s : State) :
    runMicro rom after (s.withInputs ps) = andThen (runMicro rom after s) (·.withInputs ps) := by
  simp only [runMicro, State.withInputs_upc]
  split
  · rfl
  · split
    · rfl
    · rw [exec_withInputs]
      cases exec _ s <;> simp [andThen, hafter]

theorem advanceKeyexp_withInputs (s : State) (ps : List PortIn) :
    advanceKeyexp (s.withInputs ps) = (advanceKeyexp s).withInputs ps := by
  by_cases h : s.upc = 40#6
  · rw [advanceKeyexp_last h, advanceKeyexp_last (s := s.withInputs ps) h]; rfl
  · rw [advanceKeyexp_next h, advanceKeyexp_next (s := s.withInputs ps) h]; rfl

theorem advanceCipher_withInputs (s : State) (ps : List PortIn) :
    advanceCipher (s.withInputs ps) = (advanceCipher s).withInputs ps := by
  by_cases h : s.upc = 41#6
  · rw [advanceCipher_last h, advanceCipher_last (s := s.withInputs ps) h]; rfl
  · rw [advanceCipher_next h, advanceCipher_next (s := s.withInputs ps) h]; rfl

/-- A step on one port sample is the same whatever the host will drive later (log 1). -/
theorem stepOn_withInputs (p : PortIn) (s : State) (ps : List PortIn) :
    stepOn p (s.withInputs ps) = andThen (stepOn p s) (·.withInputs ps) := by
  cases hr : p.rst with
  | true => rw [stepOn_reset p _ hr, stepOn_reset p s hr]; rfl
  | false =>
    cases hp : s.phase with
    | fault => rw [stepOn_fault p (s.withInputs ps) hr hp, stepOn_fault p s hr hp, andThen]
    | keyexp =>
      rw [stepOn_keyexp p (s.withInputs ps) hr hp, stepOn_keyexp p s hr hp]
      exact runMicro_withInputs (advanceKeyexp_withInputs · ps) s
    | cipher =>
      rw [stepOn_cipher p (s.withInputs ps) hr hp, stepOn_cipher p s hr hp]
      exact runMicro_withInputs (advanceCipher_withInputs · ps) s
    | idle =>
      cases hv : p.cmdValid with
      | false => rw [stepOn_idle_quiet p (s.withInputs ps) hr hp hv, stepOn_idle_quiet p s hr hp hv, andThen]
      | true =>
        rw [stepOn_idle_command p (s.withInputs ps) hr hp hv, stepOn_idle_command p s hr hp hv]
        exact exec_withInputs _ s ps

theorem stepOn_inputs {p : PortIn} {s t : State} (h : stepOn p s = .next t) : t.inputs = s.inputs := by
  have hsame := stepOn_withInputs p s s.inputs
  rw [show s.withInputs s.inputs = s from rfl, h, andThen] at hsame
  rw [Host.Outcome.next.inj hsame, State.withInputs_inputs]

/-! ### The steps of a session (30_encoding.md R90; 45_host_commands.md R201) -/

@[simp] theorem collect_core (x : Session) : (collect x).core = x.core := by
  unfold collect
  split <;> rfl

@[simp] theorem collect_pending (x : Session) : (collect x).pending = x.pending := by
  unfold collect
  split <;> rfl

theorem collect_eq_self {x : Session} (h : x.awaiting = true → x.core.doutValid = false) : collect x = x :=
  if_neg fun ⟨hwait, hvalid⟩ => absurd ((h hwait).symm.trans hvalid) (by decide)

theorem Stmt.offer_rst {st : Stmt} (h : st ≠ .reset) : st.offer.rst = false := by
  cases st with
  | reset => exact absurd rfl h
  | _ => rfl

theorem Stmt.taken_eq_ready {st : Stmt} (h : st ≠ .reset) (s : State) : st.taken s = ready s := by
  cases st with
  | reset => exact absurd rfl h
  | _ => rfl

theorem busy_iff (s : State) : busy s = true ↔ s.phase = .keyexp ∨ s.phase = .cipher := decide_eq_true_iff

/-- A busy core is left to itself: the host's next statement waits, unless it is a reset. -/
theorem sessionStep_busy {x : Session} {t : State} (hread : x.awaiting = true → x.core.doutValid = false)
    (hbusy : busy x.core = true) (hnext : x.pending.head? ≠ some .reset) (h : stepOn PortIn.quiet x.core = .next t) :
    sessionStep x = .next { x with core := t } := by
  have hidle : x.core.phase ≠ .idle := by rcases (busy_iff x.core).mp hbusy with hp | hp <;> simp [hp]
  simp only [sessionStep, collect_eq_self hread]
  cases hpend : x.pending with
  | nil => simp only [h]
  | cons st rest =>
    have hst : st ≠ .reset := fun hr => hnext (by rw [hpend, hr]; rfl)
    have hstep : stepOn st.offer x.core = .next t :=
      (commandPortIgnoredUnlessAccepted x.core _ _ (Stmt.offer_rst hst) rfl (.inl hidle)).trans h
    have htaken : ¬ st.taken x.core = true := by rwa [Stmt.taken_eq_ready hst, ready_iff]
    simp only [hstep, if_neg htaken, ← hpend]

/-- An idle core takes the host's next statement. -/
theorem sessionStep_idle {x : Session} {st : Stmt} {rest : List Stmt} {t : State} (hpend : x.pending = st :: rest)
    (hst : st ≠ .reset) (hidle : x.core.phase = .idle) (h : stepOn st.offer x.core = .next t) :
    sessionStep x = .next { core := t, pending := rest, awaiting := awaits st (collect x).awaiting t,
                            results := (collect x).results } := by
  have htaken : st.taken x.core = true := by rwa [Stmt.taken_eq_ready hst, ready_iff]
  simp only [sessionStep, collect_pending, collect_core, hpend, h, if_pos htaken]

theorem runStatus_running {x : Session} (hp : x.core.phase ≠ .fault) (hx : x.pending ≠ [] ∨ x.core.phase ≠ .idle) :
    runStatus x = .running := by
  rw [runStatus, if_neg hp, if_neg fun ⟨hpend, hidle⟩ => hx.elim (· hpend) (· hidle)]

theorem runStatus_completed {x : Session} (hpend : x.pending = []) (hp : x.core.phase = .idle) :
    runStatus x = .completed := by
  rw [runStatus, if_neg (by simp [hp]), if_pos ⟨hpend, hp⟩]

theorem runSession_step {x y : Session} (n : Nat) (hx : runStatus x = .running) (h : sessionStep x = .next y) :
    runSession (n + 1) x = runSession n y := by
  simp only [runSession, hx, h]

/-- A session whose run has ended stays, but for the read of its last ciphertext. -/
theorem runSession_ended {x : Session} (n : Nat) (hx : runStatus x ≠ .running) :
    runSession n x = .next (collect x) := by
  cases n with
  | zero => rfl
  | succ n =>
    rw [runSession]
    split
    · rfl
    · rfl
    next hrun => exact absurd hrun hx

/-- While the core is busy, a session runs as the core does under a host that drives nothing. -/
theorem runSession_busy {m : Nat} (n : Nat) {x : Session} {t : State} (hnext : x.pending.head? ≠ some .reset)
    (hrun : runSteps m (x.core.withInputs []) = .next t)
    (hbusy : ∀ k < m, ∃ r, runSteps k (x.core.withInputs []) = .next r ∧ busy r = true ∧
      (x.awaiting = true → r.doutValid = false)) :
    runSession (m + n) x = runSession n { x with core := t.withInputs x.core.inputs } := by
  induction m generalizing x with
  | zero =>
    obtain rfl : x.core.withInputs [] = t := Host.Outcome.next.inj hrun
    rw [Nat.zero_add]
    rfl
  | succ m ih =>
    obtain ⟨r, hr, (hb : busy r = true), hread⟩ := hbusy 0 (Nat.succ_pos m)
    obtain rfl : x.core.withInputs [] = r := Host.Outcome.next.inj hr
    have hstep : step (x.core.withInputs []) = andThen (stepOn PortIn.quiet x.core) (·.withInputs []) :=
      (step_nil _ rfl).trans (stepOn_withInputs _ _ _)
    cases hc : stepOn PortIn.quiet x.core with
    | fault e => rw [runSteps, hstep, hc] at hrun; cases hrun
    | refused e => rw [runSteps, hstep, hc] at hrun; cases hrun
    | next c =>
      rw [hc] at hstep
      have hinputs : c.inputs = x.core.inputs := stepOn_inputs hc
      have hphase : x.core.phase ≠ .fault ∧ x.core.phase ≠ .idle := by
        rcases (busy_iff x.core).mp hb with hp | hp <;> simp [hp]
      rw [Nat.succ_add, runSession_step _ (runStatus_running hphase.1 (.inr hphase.2))
        (sessionStep_busy hread hb hnext hc), ih (x := { x with core := c }) hnext]
      · simp only [hinputs]
      · exact (runSteps_succ m hstep).symm.trans hrun
      · intro k hk
        obtain ⟨r, hr, hb⟩ := hbusy (k + 1) (Nat.succ_lt_succ hk)
        exact ⟨r, (runSteps_succ k hstep).symm.trans hr, hb⟩

/-! ### A block before a key -/

/-- On an idle core without a key an offered block ends the run at once. -/
theorem runSession_noKey {n : Nat} (hn : 1 ≤ n) {s : State} (block : Block) (rest : List Stmt) (hp : s.phase = .idle)
    (hk : s.keyValid = false) :
    runSession n (Session.start s (.encrypt block :: rest)) =
      .next (Session.start { s with err := 0b01#2, phase := .fault, upc := 0#6 } rest) := by
  obtain ⟨m, rfl⟩ : ∃ m, n = m + 1 := ⟨n - 1, by omega⟩
  have hfault : stepOn (Stmt.encrypt block).offer s = .next { s with err := 0b01#2, phase := .fault, upc := 0#6 } :=
    (stepOn_idle_command _ s rfl hp rfl).trans (exec_encrypt_noKey _ hk)
  have hfirst := sessionStep_idle (x := Session.start s (.encrypt block :: rest)) rfl nofun hp hfault
  rw [runSession_step m (runStatus_running (by simp [Session.start, hp]) (.inl (List.cons_ne_nil _ _))) hfirst]
  exact runSession_ended m nofun

/-- Settles O60: the opening reset leaves an idle core without a key. -/
theorem blockBeforeKeyEndsFaulted : Obligations.BlockBeforeKeyEndsFaulted := by
  refine ⟨fun s block rest n hp hk hn => ⟨_, runSession_noKey hn block rest hp hk, rfl, rfl, rfl, rfl⟩,
    fun s block rest n hn => ?_⟩
  have hrun := runSession_noKey hn (s := resetCore s) block rest rfl rfl
  exact ⟨_, (runScript_eq n s _).trans hrun, rfl, rfl, rfl, rfl⟩

/-! ### The ECB stream (45_host_commands.md R199, R200) -/

/-- An idle core that holds the expansion of `key`. -/
structure Keyed (key : Block) (s : State) : Prop where
  idle     : s.phase = .idle
  keyValid : s.keyValid = true
  schedule : sameWords 44 s.EK (expand key)

/-- What a whole `LOADKEY` leaves of an idle core (45_host_commands.md R197). -/
def keyLoaded (key : Block) (s : State) : State :=
  { s with EK := expandUpTo s.EK key 40 (Nat.le_refl 40), IBUF := key, keyValid := true, phase := .idle, upc := 0#6 }

theorem keyed_keyLoaded (key : Block) (s : State) : Keyed key (keyLoaded key s) :=
  ⟨rfl, rfl, sameWords_expandUpTo s.EK key 40 (Nat.le_refl 40)⟩

/-- What a whole `ENCRYPT` leaves of an idle core with a key (45_host_commands.md R198). -/
def encrypted (block : Block) (s : State) : State :=
  { s with S := toState (cipher s.EK block), DOUT := cipher s.EK block, IBUF := block, doutValid := true,
           phase := .idle, upc := 0#6 }

theorem Keyed.encrypted {key : Block} {s : State} (h : Keyed key s) (block : Block) : Keyed key (encrypted block s) :=
  ⟨rfl, h.keyValid, h.schedule⟩

theorem doutPort_encrypted {key : Block} {s : State} (h : Keyed key s) (block : Block) :
    doutPort (encrypted block s) = packBlock (cipher (expand key) block) :=
  congrArg packBlock (cipher_congr h.schedule block)

theorem noReset_withInputs_nil (n : Nat) (s : State) : noReset n (s.withInputs []) := fun p hp => by simp at hp

theorem decodeCommand_offer_loadkey (key : Block) :
    decodeCommand (Stmt.loadkey key).offer.cmdOp (Stmt.loadkey key).offer.cmdData = .loadkey key :=
  congrArg Instr.loadkey (unpackBlock_packBlock key)

theorem decodeCommand_offer_encrypt (block : Block) :
    decodeCommand (Stmt.encrypt block).offer.cmdOp (Stmt.encrypt block).offer.cmdData = .encrypt block :=
  congrArg Instr.encrypt (unpackBlock_packBlock block)

/-- A session's 42 steps of a `LOADKEY`. -/
theorem runSession_loadkey (n : Nat) {s : State} (key : Block) {rest : List Stmt} (hp : s.phase = .idle)
    (hrest : rest.head? ≠ some .reset) :
    runSession (42 + n) (Session.start s (.loadkey key :: rest)) =
      runSession n (Session.start (keyLoaded key s) rest) := by
  have haccept : stepOn (Stmt.loadkey key).offer s =
      .next { s with IBUF := key, keyValid := false, phase := .keyexp, upc := 0#6 } := by
    rw [stepOn_idle_command _ s rfl hp rfl, decodeCommand_offer_loadkey, exec_loadkey]
  have hfirst := sessionStep_idle (x := Session.start s (.loadkey key :: rest)) rfl nofun hp haccept
  rw [show 42 + n = (41 + n) + 1 by omega,
    runSession_step (41 + n) (runStatus_running (by simp [Session.start, hp]) (.inl (List.cons_ne_nil _ _))) hfirst]
  refine runSession_busy n hrest (runSteps_keyexp_all rfl rfl (noReset_withInputs_nil 41 _)) fun k hk => ?_
  exact ⟨_, runSteps_keyexp rfl rfl (Nat.le_of_lt_succ hk) (noReset_withInputs_nil k _), rfl, nofun⟩

/-- A session's 43 steps of an `ENCRYPT`, which leave its ciphertext to be read; what there was to read before is read
in the first of them. -/
theorem runSession_encrypt (n : Nat) {x : Session} {block : Block} {rest : List Stmt}
    (hpend : x.pending = .encrypt block :: rest) (hp : x.core.phase = .idle) (hk : x.core.keyValid = true)
    (hrest : rest.head? ≠ some .reset) :
    runSession (43 + n) x = runSession n { core := encrypted block x.core, pending := rest, awaiting := true,
                                           results := (collect x).results } := by
  have haccept : stepOn (Stmt.encrypt block).offer x.core =
      .next { x.core with IBUF := block, doutValid := false, phase := .cipher, upc := 0#6 } := by
    rw [stepOn_idle_command _ x.core rfl hp rfl, decodeCommand_offer_encrypt, exec_encrypt_keyed block hk]
  have hfirst := sessionStep_idle hpend nofun hp haccept
  rw [show 43 + n = (42 + n) + 1 by omega,
    runSession_step (42 + n) (runStatus_running (by simp [hp]) (.inl (by simp [hpend]))) hfirst]
  refine runSession_busy n hrest (runSteps_cipher_all rfl rfl (noReset_withInputs_nil 42 _)) fun k hk => ?_
  exact ⟨_, runSteps_cipher rfl rfl (Nat.le_of_lt_succ hk) (noReset_withInputs_nil k _), rfl, fun _ => rfl⟩

theorem head?_map_encrypt (blocks : List Block) : (blocks.map Stmt.encrypt).head? ≠ some .reset := by
  cases blocks <;> simp

/-- The blocks of a stream on a core that holds its key: the results are their ciphertexts, in order. -/
theorem runSession_blocks {key : Block} (blocks : List Block) {x : Session} {n : Nat} (hkeyed : Keyed key x.core)
    (hpend : x.pending = blocks.map .encrypt) (hn : 43 * blocks.length ≤ n) :
    ∃ y, runSession n x = .next y ∧ safeRun y ∧ y.core.err = x.core.err ∧ y.core.keyValid = true ∧
      y.results = (collect x).results ++ blocks.map fun b => packBlock (cipher (expand key) b) := by
  induction blocks generalizing x n with
  | nil =>
    have hend : runStatus x = .completed := runStatus_completed hpend hkeyed.idle
    refine ⟨collect x, runSession_ended n (by simp [hend]), ?_, by simp, by simp [hkeyed.keyValid], by simp⟩
    exact runStatus_completed (by simp [hpend]) (by simp [hkeyed.idle])
  | cons b blocks ih =>
    rw [List.length_cons] at hn
    obtain ⟨m, rfl⟩ : ∃ m, n = 43 + m := ⟨n - 43, by omega⟩
    rw [runSession_encrypt m hpend hkeyed.idle hkeyed.keyValid (head?_map_encrypt blocks)]
    obtain ⟨y, hrun, hsafe, herr, hvalid, hres⟩ := ih (n := m)
      (x := ⟨encrypted b x.core, blocks.map .encrypt, true, (collect x).results⟩)
      (hkeyed.encrypted b) rfl (by omega)
    have hread : ∀ rs, (collect ⟨encrypted b x.core, blocks.map .encrypt, true, rs⟩).results =
        rs ++ [packBlock (cipher (expand key) b)] := fun rs => by
      rw [← doutPort_encrypted hkeyed b]; rfl
    refine ⟨y, hrun, hsafe, herr, hvalid, ?_⟩
    rw [hres, hread, List.append_assoc, List.map_cons, List.singleton_append]

/-- The whole stream on an idle core: the key, then the blocks. -/
theorem runSession_ecb {s : State} (key : Block) (blocks : List Block) {n : Nat} (hp : s.phase = .idle)
    (hn : 42 + 43 * blocks.length ≤ n) :
    ∃ x, runSession n (Session.start s (ecb key blocks)) = .next x ∧ safeRun x ∧
      x.core.err = s.err ∧ x.core.keyValid = true ∧
      x.results = blocks.map fun b => packBlock (cipher (expand key) b) := by
  obtain ⟨m, rfl⟩ : ∃ m, n = 42 + m := ⟨n - 42, by omega⟩
  rw [ecb, runSession_loadkey m key hp (head?_map_encrypt blocks)]
  exact runSession_blocks blocks (x := Session.start (keyLoaded key s) (blocks.map .encrypt)) (keyed_keyLoaded key s)
    rfl (by omega)

/-- Settles O59: the opening reset leaves an idle core with `err` 0. -/
theorem ecbStreamResults : Obligations.EcbStreamResults := by
  refine ⟨fun s key blocks n hp hn => runSession_ecb key blocks hp hn, fun s key blocks n hn => ?_⟩
  rw [runScript_eq]
  exact runSession_ecb (s := resetCore s) key blocks rfl hn

end Sys2Proof.Machine

-- The proofs of the family 60_exceptions.md.

namespace Sys2Proof.Machine

open Sys2Proof

/-! ### The two fault entries (60_exceptions.md R213, R214) -/

theorem exec_reserved0b11 (s : State) :
    exec .reserved0b11 s = .next { s with err := 0b10#2, phase := .fault, upc := 0#6 } := rfl

/-- Settles O28: without a key the acceptance takes its first branch, the `NoKey` entry. -/
theorem encryptWithoutKeyTakesNoKey : Obligations.EncryptWithoutKeyTakesNoKey :=
  fun block _ hk => exec_encrypt_noKey block hk

/-- Settles O29: opcode 0b11 is the decoder's last row, which reads no data bit. -/
theorem reservedOpcodeTakesIllegalCommand : Obligations.ReservedOpcodeTakesIllegalCommand :=
  ⟨exec_reserved0b11, fun _ => rfl⟩

/-! ### The steps that enter phase FAULT (60_exceptions.md R212, R215) -/

theorem step_noKey {s : State} (hr : (samplePort s).rst = false) (hp : s.phase = .idle)
    (hv : (samplePort s).cmdValid = true) (ho : (samplePort s).cmdOp = 0b10#2) (hk : s.keyValid = false) :
    step s = .next { s with err := 0b01#2, phase := .fault, upc := 0#6, inputs := s.inputs.tail } := by
  rw [step, stepOn_idle_command _ (consumePort s) hr hp hv, ho]
  exact exec_encrypt_noKey (unpackBlock (samplePort s).cmdData) (s := consumePort s) hk

theorem step_illegalCommand {s : State} (hr : (samplePort s).rst = false) (hp : s.phase = .idle)
    (hv : (samplePort s).cmdValid = true) (ho : (samplePort s).cmdOp = 0b11#2) :
    step s = .next { s with err := 0b10#2, phase := .fault, upc := 0#6, inputs := s.inputs.tail } := by
  rw [step, stepOn_idle_command _ (consumePort s) hr hp hv, ho]
  exact exec_reserved0b11 (consumePort s)

/-- Of the cases of a step, only the two fault entries lead into phase `FAULT` from another phase: the others go to a
named phase or stay in theirs. -/
theorem step_enters_fault {s t : State} (hs : s.phase ≠ .fault) (h : step s = .next t) (ht : t.phase = .fault) :
    (samplePort s).rst = false ∧ s.phase = .idle ∧ (samplePort s).cmdValid = true ∧
      (((samplePort s).cmdOp = 0b10#2 ∧ s.keyValid = false ∧
          t = { s with err := 0b01#2, phase := .fault, upc := 0#6, inputs := s.inputs.tail }) ∨
       ((samplePort s).cmdOp = 0b11#2 ∧
          t = { s with err := 0b10#2, phase := .fault, upc := 0#6, inputs := s.inputs.tail })) := by
  cases stepCase_of_step h with
  | noKey hr hp hv ho hk => exact ⟨hr, hp, hv, .inl ⟨ho, hk, rfl⟩⟩
  | illegalCommand hr hp hv ho => exact ⟨hr, hp, hv, .inr ⟨ho, rfl⟩⟩
  | reset | loadkey | encrypt | keyLast | cipherLast => cases ht
  | faultHeld | quiet | nop | keyCopy | keyWord | cipherRound => exact absurd ht hs

/-- Settles O19: the whole state after a fault entry is known, so the code and the frame are read off it. -/
theorem exactlyTwoFaultCauses : Obligations.ExactlyTwoFaultCauses := by
  intro s t hs h
  have hentry := step_enters_fault hs h
  refine ⟨⟨fun ht => ?causes, ?enters⟩, fun ht ho => ?noKeyCode, fun ht ho => ?illegalCode, fun ht => ?frame⟩
  case causes =>
    obtain ⟨hr, hp, hv, ⟨ho, hk, -⟩ | ⟨ho, -⟩⟩ := hentry ht
    · exact ⟨hr, hp, hv, .inl ⟨ho, hk⟩⟩
    · exact ⟨hr, hp, hv, .inr ho⟩
  case enters =>
    rintro ⟨hr, hp, hv, ⟨ho, hk⟩ | ho⟩
    · exact (Host.Outcome.next.inj (h.symm.trans (step_noKey hr hp hv ho hk))) ▸ rfl
    · exact (Host.Outcome.next.inj (h.symm.trans (step_illegalCommand hr hp hv ho))) ▸ rfl
  case noKeyCode =>
    obtain ⟨-, -, -, ⟨-, -, rfl⟩ | ⟨ho', -⟩⟩ := hentry ht
    · rfl
    · exact absurd (ho.symm.trans ho') (by decide)
  case illegalCode =>
    obtain ⟨-, -, -, ⟨ho', -, -⟩ | ⟨-, rfl⟩⟩ := hentry ht
    · exact absurd (ho.symm.trans ho') (by decide)
    · rfl
  case frame =>
    obtain ⟨-, -, -, ⟨-, -, rfl⟩ | ⟨-, rfl⟩⟩ := hentry ht
    · exact ⟨rfl, rfl, rfl, rfl, rfl, rfl, rfl⟩
    · exact ⟨rfl, rfl, rfl, rfl, rfl, rfl, rfl⟩

/-! ### Phase FAULT (60_exceptions.md R216) -/

theorem step_fault {s : State} (hr : (samplePort s).rst = false) (hp : s.phase = .fault) :
    step s = .next { s with inputs := s.inputs.tail } := stepOn_fault (samplePort s) (consumePort s) hr hp

theorem runSteps_fault {s : State} {n : Nat} (hp : s.phase = .fault) (hr : noReset n s) :
    runSteps n s = .next { s with inputs := s.inputs.drop n } := by
  induction n with
  | zero => rfl
  | succ n ih =>
    have hrun := ih (noReset_mono hr (Nat.le_succ n))
    have hstep := step_fault (s := { s with inputs := s.inputs.drop n }) (noReset_samplePort hr (Nat.lt_succ_self n)) hp
    rw [runSteps_step hrun hstep, List.tail_drop]

/-- Settles O13: each step keeps the core in `FAULT` and takes one port sample off the host's list. -/
theorem faultPhaseHolds : Obligations.FaultPhaseHolds :=
  fun s _ hp hr => ⟨runSteps_fault hp hr, decide_eq_false (by rw [hp]; exact nofun)⟩

end Sys2Proof.Machine

-- The proofs of the family 70_reset_and_hazards.md.

namespace Sys2Proof.Machine

open Sys2Proof

/-! ### Steps with reset (70_reset_and_hazards.md R241, R242) -/

theorem step_reset {s : State} (hr : (samplePort s).rst = true) :
    step s = .next { s with phase := .idle, upc := 0#6, keyValid := false, doutValid := false, err := 0b00#2,
                            inputs := s.inputs.tail } := stepOn_reset (samplePort s) (consumePort s) hr

/-- The status vector of an idle core without a key, a ciphertext or a fault (10_state.md R32). -/
theorem status_of_idle {s : State} (hp : s.phase = .idle) (hk : s.keyValid = false) (hd : s.doutValid = false)
    (he : s.err = 0b00#2) : status s = 0b00001#5 := by
  rw [status, he, hd, hk, (ready_iff s).mpr hp]
  rfl

/-- Settles O11: reset is the first case of the step. -/
theorem resetStep : Obligations.ResetStep := fun _ hr => ⟨step_reset hr, status_of_idle rfl rfl rfl rfl⟩

/-- Settles O21: reset is idle with `upc` and `err` zero and without a key, and lists no cell. -/
theorem resetMeetsTheInvariants : Obligations.ResetMeetsTheInvariants :=
  ⟨.of_idle rfl rfl rfl, ⟨nofun, nofun⟩, reset_memory_wf, status_of_idle rfl rfl rfl rfl⟩

/-- The port sample of the step after `n` others, where the host's list still holds one. -/
theorem headD_drop_inputs {ps : List PortIn} {n : Nat} (hn : n < ps.length) :
    (ps.drop n).headD PortIn.quiet = ps[n] := by
  rw [List.drop_eq_getElem_cons hn, List.headD_cons]

theorem samplePort_of_held {ps : List PortIn} {m n : Nat} (hlen : n ≤ ps.length) (hr : ∀ p ∈ ps.take n, p.rst = true)
    (hm : m < n) : ((ps.drop m).headD PortIn.quiet).rst = true := by
  rw [headD_drop_inputs (by omega)]
  exact hr _ (List.mem_take_iff_getElem.mpr ⟨m, by omega, rfl⟩)

theorem runSteps_reset {s : State} {n : Nat} (h1 : 1 ≤ n) (hlen : n ≤ s.inputs.length)
    (hr : ∀ p ∈ s.inputs.take n, p.rst = true) :
    runSteps n s = .next { s with phase := .idle, upc := 0#6, keyValid := false, doutValid := false, err := 0b00#2,
                                  inputs := s.inputs.drop n } := by
  induction n, h1 using Nat.le_induction with
  | base =>
    have hstep := step_reset (s := s) (samplePort_of_held hlen hr Nat.one_pos)
    rw [runSteps_succ 0 hstep, runSteps_zero, List.drop_one]
  | succ n h1 ih =>
    have hrun := ih (Nat.le_of_succ_le hlen) fun p hp => hr p (List.take_subset_take_left _ (Nat.le_succ n) hp)
    rw [runSteps_step hrun (step_reset (samplePort_of_held hlen hr (Nat.lt_succ_self n))), List.tail_drop]

/-- Settles O12: a reset step on a core that was just reset takes one more port sample off and changes nothing else. -/
theorem heldResetIsOneReset : Obligations.HeldResetIsOneReset := fun _ _ => runSteps_reset

/-! ### The end of a busy phase (70_reset_and_hazards.md R250) -/

/-- How many micro-operations a core still has before it: none outside the busy phases. -/
def microStepsLeft (s : State) : Nat :=
  match s.phase with
  | .idle => 0
  | .keyexp => 41 - s.upc.toNat
  | .cipher => 42 - s.upc.toNat
  | .fault => 0

theorem microStepsLeft_idle {s : State} (hp : s.phase = .idle) : microStepsLeft s = 0 := by rw [microStepsLeft, hp]

theorem microStepsLeft_keyexp {s : State} (hp : s.phase = .keyexp) : microStepsLeft s = 41 - s.upc.toNat := by
  rw [microStepsLeft, hp]

theorem microStepsLeft_cipher {s : State} (hp : s.phase = .cipher) : microStepsLeft s = 42 - s.upc.toNat := by
  rw [microStepsLeft, hp]

theorem microStepsLeft_fault {s : State} (hp : s.phase = .fault) : microStepsLeft s = 0 := by rw [microStepsLeft, hp]

theorem microStepsLeft_le (s : State) : microStepsLeft s ≤ 42 := by
  unfold microStepsLeft
  split <;> omega

/-- A busy core has a micro-operation before it, because `upc` lies inside its ROM. -/
theorem idle_of_microStepsLeft_zero {s : State} (hs : ControlInv s) (hf : s.phase ≠ .fault)
    (h : microStepsLeft s = 0) : s.phase = .idle := by
  cases hp : s.phase with
  | idle => rfl
  | fault => exact absurd hp hf
  | keyexp =>
    have hle := hs.keyexpUpc hp
    rw [microStepsLeft_keyexp hp] at h
    omega
  | cipher =>
    have hle := hs.cipherUpc hp
    rw [microStepsLeft_cipher hp] at h
    omega

/-- A step without reset of a core with micro-operations before it executes one of them and ends in no fault. -/
theorem step_microStepsLeft {s t : State} {k : Nat} (hs : ControlInv s) (hr : (samplePort s).rst = false)
    (hk : microStepsLeft s = k + 1) (h : step s = .next t) : microStepsLeft t = k ∧ t.phase ≠ .fault := by
  obtain ⟨hr', -⟩ | ⟨-, ⟨hp, hu, hp', hu'⟩ | ⟨hp, hu, hp', -⟩ | ⟨hp, hu, hp', hu'⟩ | ⟨hp, hu, hp', -⟩ | ⟨hp, -⟩ |
    ⟨hp, -⟩⟩ := programCounterMoves s t hs h
  · exact absurd (hr.symm.trans hr') nofun
  · rw [microStepsLeft_keyexp hp] at hk
    exact ⟨by rw [microStepsLeft_keyexp hp']; omega, hp' ▸ nofun⟩
  · rw [microStepsLeft_keyexp hp] at hk
    exact ⟨by rw [microStepsLeft_idle hp']; omega, hp' ▸ nofun⟩
  · rw [microStepsLeft_cipher hp] at hk
    exact ⟨by rw [microStepsLeft_cipher hp']; omega, hp' ▸ nofun⟩
  · rw [microStepsLeft_cipher hp] at hk
    exact ⟨by rw [microStepsLeft_idle hp']; omega, hp' ▸ nofun⟩
  · exact absurd ((microStepsLeft_fault hp).symm.trans hk) nofun
  · exact absurd ((microStepsLeft_idle hp).symm.trans hk) nofun

theorem step_inputs {s t : State} (h : step s = .next t) : t.inputs = s.inputs.tail := stepOn_inputs h

/-- A core that is neither in `FAULT` nor reset is idle once it has executed the micro-operations before it. -/
theorem runSteps_microStepsLeft {s : State} {k : Nat} (hs : ControlInv s) (hf : s.phase ≠ .fault)
    (hk : microStepsLeft s = k) (hr : noReset k s) : ∃ t, runSteps k s = .next t ∧ t.phase = .idle := by
  induction k generalizing s with
  | zero => exact ⟨s, rfl, idle_of_microStepsLeft_zero hs hf hk⟩
  | succ k ih =>
    obtain ⟨s₁, hs₁⟩ := step_completes hs
    obtain ⟨hk₁, hf₁⟩ := step_microStepsLeft hs (noReset_samplePort hr (Nat.succ_pos k)) hk hs₁
    rw [runSteps_succ k hs₁]
    exact ih (controlInv_step hs hs₁) hf₁ hk₁ (noReset_tail hr (step_inputs hs₁))

/-- Settles O55: at most 42 micro-operations are before a busy core, and each step executes one. -/
theorem busyPhaseEnds : Obligations.BusyPhaseEnds := by
  intro s hs hb hr
  have hf : s.phase ≠ .fault := by
    rcases (busy_iff s).mp hb with hp | hp <;> exact hp ▸ nofun
  obtain ⟨t, ht, hidle⟩ := runSteps_microStepsLeft hs hf rfl (noReset_mono hr (microStepsLeft_le s))
  exact ⟨microStepsLeft s, t, microStepsLeft_le s, ht, hidle⟩

/-! ### A reset during the expansion (70_reset_and_hazards.md R243) -/

/-- Of the schedule, the first `u` instructions of `KROM` have written the words 0 to u+2. -/
theorem sameWords_kromMemory (E : Memory) (key : Block) {u : Nat} (h1 : 1 ≤ u) (hu : u ≤ 41) :
    sameWords (u + 3) (kromMemory E key u hu) (expand key) := by
  cases u with
  | zero => exact absurd h1 (Nat.not_succ_le_zero 0)
  | succ n =>
    rw [Nat.add_right_comm n 1 3]
    exact sameWords_expandUpTo E key n (Nat.le_of_succ_le_succ hu)

theorem read_kromMemory_above (E : Memory) (key : Block) {u a : Nat} (hu : u ≤ 41) (ha : 4 * (u + 3) ≤ a) :
    Memory.read (kromMemory E key u hu) a = Memory.read E a := by
  cases u with
  | zero => rfl
  | succ n => exact read_expandUpTo_above E key n (Nat.le_of_succ_le_succ hu) a (by omega)

/-- An accepted `LOADKEY` that is not reset has executed the first `u` instructions of `KROM` when `upc = u`. -/
theorem runSteps_loadkey_upc {s : State} {data : BitVec 128} {u : Nat} (hp : s.phase = .idle) (hr : noReset (u + 1) s)
    (hv : (samplePort s).cmdValid = true) (ho : (samplePort s).cmdOp = 0b01#2) (hd : (samplePort s).cmdData = data)
    (hu : u ≤ 40) :
    runSteps (u + 1) s = .next { s with EK := kromMemory s.EK (unpackBlock data) u (Nat.le_succ_of_le hu),
                                        IBUF := unpackBlock data, keyValid := false, phase := .keyexp,
                                        upc := BitVec.ofNat 6 u, inputs := s.inputs.drop (u + 1) } := by
  have haccept := (step_idle_command hp hr hv ho hd).trans (exec_loadkey (unpackBlock data) (consumePort s))
  rw [runSteps_succ u haccept, runSteps_keyexp rfl rfl hu (noReset_tail hr rfl)]
  simp [keyexpAfter]

/-- Settles O56: the acceptance, `u` instructions of `KROM`, and a reset step, which does not write `EK`. -/
theorem resetDuringExpansion : Obligations.ResetDuringExpansion := by
  intro s u hp _ hv ho hu hlen hr hrst
  have hexpand := runSteps_loadkey_upc hp hr hv ho rfl hu
  have hsample : ((s.inputs.drop (u + 1)).headD PortIn.quiet).rst = true := by
    rw [headD_drop_inputs (by omega)]
    exact hrst _ (List.getElem?_eq_getElem (by omega))
  refine ⟨_, runSteps_step hexpand (step_reset hsample), rfl, rfl, rfl, fun h0 => ?unwritten,
    fun h1 => sameWords_kromMemory s.EK _ h1 _, fun _ a ha => read_kromMemory_above s.EK _ _ ha⟩
  case unwritten =>
    subst h0
    rfl

end Sys2Proof.Machine
